-- ==== Sys2Proof/Word.lean ====
section
/-! DEFINITION. The two word types of the machine (spec/00_scope.md R5, R9). -/

namespace Sys2Proof

/-- A byte: XLEN = 8 bits (R5). Bit 0 is the least significant bit (R9). -/
abbrev Byte := BitVec 8

/-- An address: ALEN = 16 bits (R5). Sums of addresses wrap modulo 65536. -/
abbrev Addr := BitVec 16

end Sys2Proof
end

