-- ==== Sys2Proof/Config.lean ====
section
/-! DEFINITION. What an implementation of the machine fixes: the parameters of spec/00_scope.md R5 and R6. -/

namespace Sys2Proof.Config

/-- `MEM_SIZE`: 65536 bytes (R5). -/
def memSize : Nat := 65536

/-- `HALT_OPCODE`, the halt sentinel (R5). -/
def haltOpcode : Byte := 0x00

/-- `RESET_S`: the stack pointer starts at the top of its range (R5). -/
def resetS : Byte := 0xFF

/-- `RESET_PC` (R6) of `State.reset`. The spec leaves it open; 0x0600 is the example value of
spec/95_test_vectors.md section 0. DESIGN CHOICE, log 1. Statements about reset hold for every value: they
are about `State.resetWith`, which takes it as an argument. -/
def resetPc : Addr := 0x0600

/-- `RESET_P` (R6) of `State.reset`. The spec leaves it open; 0x30 is the example value of
spec/95_test_vectors.md section 0. DESIGN CHOICE, log 2; as for `resetPc`, statements are about
`State.resetWith`. -/
def resetP : Byte := 0x30

/-- `ZP_PTR_HI_WRAP` (R6, R128, decision D15): whether the high byte of a zero-page pointer that lies at
0x00FF is read at 0x0000 (true) or at 0x0100 (false). The spec leaves it open, so it has no body and every
statement holds for both values. Log 4. -/
opaque zpPtrHiWrap : Bool

end Sys2Proof.Config
end

