-- ==== Sys2Proof/Syntax.lean ====
section
/-! DEFINITION. The syntax of the instruction set: the twelve addressing modes (spec/30_encoding.md R84), the sixteen
operations (R89), an operand as the instruction bytes give it (R86), and the sixty instructions (R90, R91), one
constructor for each row of spec/opcode_table.json. -/

namespace Sys2Proof

/-- The twelve addressing modes (R84). -/
inductive Mode where
  | imm | zp | zpx | zpy | abs | absx | absy | ind | indx | indy | imp | rel
  deriving DecidableEq, Repr

/-- The sixteen operations (R89). -/
inductive Operation where
  | lda | ldx | ldy | sta | stx | sty | adc | cmp | cpx | cpy | inx | dex | tax | bne | jmp | brk
  deriving DecidableEq, Repr

/-- An operand as the instruction's own bytes give it: the mode and its assembled field (R84, R86). `zp`-like modes
and the pointers of `indx` and `indy` hold the byte b1, the absolute modes and `ind` hold the 16-bit value of b2, b1. -/
inductive Operand where
  | imm (v : Byte)
  | zp (b : Byte)
  | zpx (b : Byte)
  | zpy (b : Byte)
  | abs (w : Addr)
  | absx (w : Addr)
  | absy (w : Addr)
  | ind (w : Addr)
  | indx (b : Byte)
  | indy (b : Byte)
  | imp
  | rel (d : Byte)
  deriving DecidableEq, Repr

/-- The sixty instructions: one constructor for each row of spec/opcode_table.json, with its operand field. -/
inductive Instr where
  /-- LDA #$nn -/
  | ldaImm (imm : Byte)
  /-- LDA $nn -/
  | ldaZp (zp : Byte)
  /-- LDA $nn,X -/
  | ldaZpx (zp : Byte)
  /-- LDA $nnnn -/
  | ldaAbs (addr : Addr)
  /-- LDA $nnnn,X -/
  | ldaAbsx (addr : Addr)
  /-- LDA $nnnn,Y -/
  | ldaAbsy (addr : Addr)
  /-- LDA ($nn,X) -/
  | ldaIndx (zp : Byte)
  /-- LDA ($nn),Y -/
  | ldaIndy (zp : Byte)
  /-- LDX #$nn -/
  | ldxImm (imm : Byte)
  /-- LDX $nn -/
  | ldxZp (zp : Byte)
  /-- LDX $nn,Y -/
  | ldxZpy (zp : Byte)
  /-- LDX $nnnn -/
  | ldxAbs (addr : Addr)
  /-- LDX $nnnn,Y -/
  | ldxAbsy (addr : Addr)
  /-- LDY #$nn -/
  | ldyImm (imm : Byte)
  /-- LDY $nn -/
  | ldyZp (zp : Byte)
  /-- LDY $nn,X -/
  | ldyZpx (zp : Byte)
  /-- LDY $nnnn -/
  | ldyAbs (addr : Addr)
  /-- LDY $nnnn,X -/
  | ldyAbsx (addr : Addr)
  /-- STA $nn -/
  | staZp (zp : Byte)
  /-- STA $nn,X -/
  | staZpx (zp : Byte)
  /-- STA $nnnn -/
  | staAbs (addr : Addr)
  /-- STA $nnnn,X -/
  | staAbsx (addr : Addr)
  /-- STA $nnnn,Y -/
  | staAbsy (addr : Addr)
  /-- STA ($nn,X) -/
  | staIndx (zp : Byte)
  /-- STA ($nn),Y -/
  | staIndy (zp : Byte)
  /-- STX $nn -/
  | stxZp (zp : Byte)
  /-- STX $nn,Y -/
  | stxZpy (zp : Byte)
  /-- STX $nnnn -/
  | stxAbs (addr : Addr)
  /-- STY $nn -/
  | styZp (zp : Byte)
  /-- STY $nn,X -/
  | styZpx (zp : Byte)
  /-- STY $nnnn -/
  | styAbs (addr : Addr)
  /-- ADC #$nn -/
  | adcImm (imm : Byte)
  /-- ADC $nn -/
  | adcZp (zp : Byte)
  /-- ADC $nn,X -/
  | adcZpx (zp : Byte)
  /-- ADC $nnnn -/
  | adcAbs (addr : Addr)
  /-- ADC $nnnn,X -/
  | adcAbsx (addr : Addr)
  /-- ADC $nnnn,Y -/
  | adcAbsy (addr : Addr)
  /-- ADC ($nn,X) -/
  | adcIndx (zp : Byte)
  /-- ADC ($nn),Y -/
  | adcIndy (zp : Byte)
  /-- CMP #$nn -/
  | cmpImm (imm : Byte)
  /-- CMP $nn -/
  | cmpZp (zp : Byte)
  /-- CMP $nn,X -/
  | cmpZpx (zp : Byte)
  /-- CMP $nnnn -/
  | cmpAbs (addr : Addr)
  /-- CMP $nnnn,X -/
  | cmpAbsx (addr : Addr)
  /-- CMP $nnnn,Y -/
  | cmpAbsy (addr : Addr)
  /-- CMP ($nn,X) -/
  | cmpIndx (zp : Byte)
  /-- CMP ($nn),Y -/
  | cmpIndy (zp : Byte)
  /-- CPX #$nn -/
  | cpxImm (imm : Byte)
  /-- CPX $nn -/
  | cpxZp (zp : Byte)
  /-- CPX $nnnn -/
  | cpxAbs (addr : Addr)
  /-- CPY #$nn -/
  | cpyImm (imm : Byte)
  /-- CPY $nn -/
  | cpyZp (zp : Byte)
  /-- CPY $nnnn -/
  | cpyAbs (addr : Addr)
  /-- INX -/
  | inx
  /-- DEX -/
  | dex
  /-- TAX -/
  | tax
  /-- BNE label -/
  | bne (disp : Byte)
  /-- JMP $nnnn -/
  | jmpAbs (addr : Addr)
  /-- JMP ($nnnn) -/
  | jmpInd (ptr : Addr)
  /-- BRK -/
  | brk
  deriving DecidableEq, Repr

/-- The operation of an instruction. -/
def Instr.operation : Instr → Operation
  | .ldaImm _ => .lda
  | .ldaZp _ => .lda
  | .ldaZpx _ => .lda
  | .ldaAbs _ => .lda
  | .ldaAbsx _ => .lda
  | .ldaAbsy _ => .lda
  | .ldaIndx _ => .lda
  | .ldaIndy _ => .lda
  | .ldxImm _ => .ldx
  | .ldxZp _ => .ldx
  | .ldxZpy _ => .ldx
  | .ldxAbs _ => .ldx
  | .ldxAbsy _ => .ldx
  | .ldyImm _ => .ldy
  | .ldyZp _ => .ldy
  | .ldyZpx _ => .ldy
  | .ldyAbs _ => .ldy
  | .ldyAbsx _ => .ldy
  | .staZp _ => .sta
  | .staZpx _ => .sta
  | .staAbs _ => .sta
  | .staAbsx _ => .sta
  | .staAbsy _ => .sta
  | .staIndx _ => .sta
  | .staIndy _ => .sta
  | .stxZp _ => .stx
  | .stxZpy _ => .stx
  | .stxAbs _ => .stx
  | .styZp _ => .sty
  | .styZpx _ => .sty
  | .styAbs _ => .sty
  | .adcImm _ => .adc
  | .adcZp _ => .adc
  | .adcZpx _ => .adc
  | .adcAbs _ => .adc
  | .adcAbsx _ => .adc
  | .adcAbsy _ => .adc
  | .adcIndx _ => .adc
  | .adcIndy _ => .adc
  | .cmpImm _ => .cmp
  | .cmpZp _ => .cmp
  | .cmpZpx _ => .cmp
  | .cmpAbs _ => .cmp
  | .cmpAbsx _ => .cmp
  | .cmpAbsy _ => .cmp
  | .cmpIndx _ => .cmp
  | .cmpIndy _ => .cmp
  | .cpxImm _ => .cpx
  | .cpxZp _ => .cpx
  | .cpxAbs _ => .cpx
  | .cpyImm _ => .cpy
  | .cpyZp _ => .cpy
  | .cpyAbs _ => .cpy
  | .inx => .inx
  | .dex => .dex
  | .tax => .tax
  | .bne _ => .bne
  | .jmpAbs _ => .jmp
  | .jmpInd _ => .jmp
  | .brk => .brk

/-- The operand of an instruction, with its mode. -/
def Instr.operand : Instr → Operand
  | .ldaImm v => .imm v
  | .ldaZp b => .zp b
  | .ldaZpx b => .zpx b
  | .ldaAbs w => .abs w
  | .ldaAbsx w => .absx w
  | .ldaAbsy w => .absy w
  | .ldaIndx b => .indx b
  | .ldaIndy b => .indy b
  | .ldxImm v => .imm v
  | .ldxZp b => .zp b
  | .ldxZpy b => .zpy b
  | .ldxAbs w => .abs w
  | .ldxAbsy w => .absy w
  | .ldyImm v => .imm v
  | .ldyZp b => .zp b
  | .ldyZpx b => .zpx b
  | .ldyAbs w => .abs w
  | .ldyAbsx w => .absx w
  | .staZp b => .zp b
  | .staZpx b => .zpx b
  | .staAbs w => .abs w
  | .staAbsx w => .absx w
  | .staAbsy w => .absy w
  | .staIndx b => .indx b
  | .staIndy b => .indy b
  | .stxZp b => .zp b
  | .stxZpy b => .zpy b
  | .stxAbs w => .abs w
  | .styZp b => .zp b
  | .styZpx b => .zpx b
  | .styAbs w => .abs w
  | .adcImm v => .imm v
  | .adcZp b => .zp b
  | .adcZpx b => .zpx b
  | .adcAbs w => .abs w
  | .adcAbsx w => .absx w
  | .adcAbsy w => .absy w
  | .adcIndx b => .indx b
  | .adcIndy b => .indy b
  | .cmpImm v => .imm v
  | .cmpZp b => .zp b
  | .cmpZpx b => .zpx b
  | .cmpAbs w => .abs w
  | .cmpAbsx w => .absx w
  | .cmpAbsy w => .absy w
  | .cmpIndx b => .indx b
  | .cmpIndy b => .indy b
  | .cpxImm v => .imm v
  | .cpxZp b => .zp b
  | .cpxAbs w => .abs w
  | .cpyImm v => .imm v
  | .cpyZp b => .zp b
  | .cpyAbs w => .abs w
  | .inx => .imp
  | .dex => .imp
  | .tax => .imp
  | .bne d => .rel d
  | .jmpAbs w => .abs w
  | .jmpInd w => .ind w
  | .brk => .imp

/-- One entry of the Instruction Catalog: an opcode byte and the (mode, operation) pair it selects (R87, R88). -/
structure CatalogEntry where
  opcode : Byte
  mode : Mode
  operation : Operation
  deriving DecidableEq, Repr

end Sys2Proof
end

