-- ==== Sys2Proof/WellFormed.lean ====
section
/-! DEFINITION. Well-formedness. An instruction has no ill-formed term: its fields are exactly as wide as the encoding's
(spec/30_encoding.md R82, R83) and no operand value is illegal (spec/60_exceptions.md R228), so the checks are on the
two kinds of data that can be ill formed: an instruction's PIECES before they are put together (an operation with a mode
it does not support, R90), and a catalog (R88). -/

namespace Sys2Proof

/-- Which modes each operation supports: the rows of the catalog matrix (R90), a `-` there being absent here. -/
def Operation.modes : Operation → List Mode
  | .lda => [.imm, .zp, .zpx, .abs, .absx, .absy, .indx, .indy]
  | .ldx => [.imm, .zp, .zpy, .abs, .absy]
  | .ldy => [.imm, .zp, .zpx, .abs, .absx]
  | .sta => [.zp, .zpx, .abs, .absx, .absy, .indx, .indy]
  | .stx => [.zp, .zpy, .abs]
  | .sty => [.zp, .zpx, .abs]
  | .adc => [.imm, .zp, .zpx, .abs, .absx, .absy, .indx, .indy]
  | .cmp => [.imm, .zp, .zpx, .abs, .absx, .absy, .indx, .indy]
  | .cpx => [.imm, .zp, .abs]
  | .cpy => [.imm, .zp, .abs]
  | .inx => [.imp]
  | .dex => [.imp]
  | .tax => [.imp]
  | .bne => [.rel]
  | .jmp => [.abs, .ind]
  | .brk => [.imp]

/-- The mode of an operand (R84). -/
def Operand.mode : Operand → Mode
  | .imm _ => .imm
  | .zp _ => .zp
  | .zpx _ => .zpx
  | .zpy _ => .zpy
  | .abs _ => .abs
  | .absx _ => .absx
  | .absy _ => .absy
  | .ind _ => .ind
  | .indx _ => .indx
  | .indy _ => .indy
  | .imp => .imp
  | .rel _ => .rel

/-- An operation and an operand make an instruction exactly when the operation supports the operand's mode (R90). -/
def wellFormedPair (op : Operation) (o : Operand) : Bool :=
  op.modes.contains o.mode

/-- The check on an instruction: its operation supports its operand's mode. Every constructor of `Instr` passes it. -/
def Instr.wellFormed (i : Instr) : Bool :=
  wellFormedPair i.operation i.operand

/-- No two entries of a catalog claim the same opcode byte (R88, R225). -/
def catalogDistinct : List CatalogEntry → Bool
  | [] => true
  | e :: rest => rest.all (fun f => f.opcode != e.opcode) && catalogDistinct rest

/-- Every entry of a catalog pairs an operation with a mode that operation supports (R90). -/
def catalogModesSupported (c : List CatalogEntry) : Bool :=
  c.all (fun e => e.operation.modes.contains e.mode)

/-- A catalog from which a decoder may be generated (R88): a table is a function from byte to optional entry, and a
catalog with a collision yields no machine. -/
def catalogWellFormed (c : List CatalogEntry) : Bool :=
  catalogDistinct c && catalogModesSupported c

end Sys2Proof
end

