-- ==== Sys2Proof/Decode.lean ====
section
/-! DEFINITION. The decoder (spec/30_encoding.md): total on any bytes, by table and not by bit fields (R85), rejecting by
name; and after it the encoder, written from the catalog matrix (R90) where the decoder's table is written from the
numeric map (R91). All opcode values but 0x00 are the spec's own decision D3 (log 14). -/

namespace Sys2Proof

/-! ## Operand bytes -/

/-- `{hi, lo}`: the 16-bit value of two bytes in little-endian order, the low byte first (R57, R83, R86). -/
def word16 (lo hi : Byte) : Addr :=
  hi ++ lo

/-- The low byte of a 16-bit value, the one at the lower address (R57). -/
def lowByte (w : Addr) : Byte :=
  w.extractLsb' 0 8

/-- The high byte of a 16-bit value (R57). -/
def highByte (w : Addr) : Byte :=
  w.extractLsb' 8 8

/-- How many operand bytes a mode consumes: 0, 1 or 2 (R81 to R84). -/
def Mode.operandBytes : Mode → Nat
  | .imp => 0
  | .imm | .zp | .zpx | .zpy | .indx | .indy | .rel => 1
  | .abs | .absx | .absy | .ind => 2

/-- The length of an instruction of a mode: the opcode byte and its operand bytes (R80, R84). -/
def Mode.length (m : Mode) : Nat :=
  1 + m.operandBytes

/-- Assembles the operand of a mode from the operand bytes in fetch order (R86). A byte the mode does not consume is
ignored. -/
def Operand.ofBytes : Mode → Byte → Byte → Operand
  | .imm, b1, _ => .imm b1
  | .zp, b1, _ => .zp b1
  | .zpx, b1, _ => .zpx b1
  | .zpy, b1, _ => .zpy b1
  | .abs, b1, b2 => .abs (word16 b1 b2)
  | .absx, b1, b2 => .absx (word16 b1 b2)
  | .absy, b1, b2 => .absy (word16 b1 b2)
  | .ind, b1, b2 => .ind (word16 b1 b2)
  | .indx, b1, _ => .indx b1
  | .indy, b1, _ => .indy b1
  | .imp, _, _ => .imp
  | .rel, b1, _ => .rel b1

/-! ## The Opcode Table -/

/-- The defined opcode bytes 0x00 to 0x0F, in numeric order (R91). -/
def catalogRow0 : List CatalogEntry :=
  [⟨0x00, .imp, .brk⟩]

/-- The defined opcode bytes 0x40 to 0x4F, in numeric order (R91). -/
def catalogRow4 : List CatalogEntry :=
  [⟨0x4C, .abs, .jmp⟩]

/-- The defined opcode bytes 0x60 to 0x6F, in numeric order (R91). -/
def catalogRow6 : List CatalogEntry :=
  [⟨0x61, .indx, .adc⟩, ⟨0x65, .zp, .adc⟩, ⟨0x69, .imm, .adc⟩, ⟨0x6C, .ind, .jmp⟩,
   ⟨0x6D, .abs, .adc⟩]

/-- The defined opcode bytes 0x70 to 0x7F, in numeric order (R91). -/
def catalogRow7 : List CatalogEntry :=
  [⟨0x71, .indy, .adc⟩, ⟨0x75, .zpx, .adc⟩, ⟨0x79, .absy, .adc⟩, ⟨0x7D, .absx, .adc⟩]

/-- The defined opcode bytes 0x80 to 0x8F, in numeric order (R91). -/
def catalogRow8 : List CatalogEntry :=
  [⟨0x81, .indx, .sta⟩, ⟨0x84, .zp, .sty⟩, ⟨0x85, .zp, .sta⟩, ⟨0x86, .zp, .stx⟩,
   ⟨0x8C, .abs, .sty⟩, ⟨0x8D, .abs, .sta⟩, ⟨0x8E, .abs, .stx⟩]

/-- The defined opcode bytes 0x90 to 0x9F, in numeric order (R91). -/
def catalogRow9 : List CatalogEntry :=
  [⟨0x91, .indy, .sta⟩, ⟨0x94, .zpx, .sty⟩, ⟨0x95, .zpx, .sta⟩, ⟨0x96, .zpy, .stx⟩,
   ⟨0x99, .absy, .sta⟩, ⟨0x9D, .absx, .sta⟩]

/-- The defined opcode bytes 0xA0 to 0xAF, in numeric order (R91). -/
def catalogRowA : List CatalogEntry :=
  [⟨0xA0, .imm, .ldy⟩, ⟨0xA1, .indx, .lda⟩, ⟨0xA2, .imm, .ldx⟩, ⟨0xA4, .zp, .ldy⟩,
   ⟨0xA5, .zp, .lda⟩, ⟨0xA6, .zp, .ldx⟩, ⟨0xA9, .imm, .lda⟩, ⟨0xAA, .imp, .tax⟩,
   ⟨0xAC, .abs, .ldy⟩, ⟨0xAD, .abs, .lda⟩, ⟨0xAE, .abs, .ldx⟩]

/-- The defined opcode bytes 0xB0 to 0xBF, in numeric order (R91). -/
def catalogRowB : List CatalogEntry :=
  [⟨0xB1, .indy, .lda⟩, ⟨0xB4, .zpx, .ldy⟩, ⟨0xB5, .zpx, .lda⟩, ⟨0xB6, .zpy, .ldx⟩,
   ⟨0xB9, .absy, .lda⟩, ⟨0xBC, .absx, .ldy⟩, ⟨0xBD, .absx, .lda⟩, ⟨0xBE, .absy, .ldx⟩]

/-- The defined opcode bytes 0xC0 to 0xCF, in numeric order (R91). -/
def catalogRowC : List CatalogEntry :=
  [⟨0xC0, .imm, .cpy⟩, ⟨0xC1, .indx, .cmp⟩, ⟨0xC4, .zp, .cpy⟩, ⟨0xC5, .zp, .cmp⟩,
   ⟨0xC9, .imm, .cmp⟩, ⟨0xCA, .imp, .dex⟩, ⟨0xCC, .abs, .cpy⟩, ⟨0xCD, .abs, .cmp⟩]

/-- The defined opcode bytes 0xD0 to 0xDF, in numeric order (R91). -/
def catalogRowD : List CatalogEntry :=
  [⟨0xD0, .rel, .bne⟩, ⟨0xD1, .indy, .cmp⟩, ⟨0xD5, .zpx, .cmp⟩, ⟨0xD9, .absy, .cmp⟩,
   ⟨0xDD, .absx, .cmp⟩]

/-- The defined opcode bytes 0xE0 to 0xEF, in numeric order (R91). -/
def catalogRowE : List CatalogEntry :=
  [⟨0xE0, .imm, .cpx⟩, ⟨0xE4, .zp, .cpx⟩, ⟨0xE8, .imp, .inx⟩, ⟨0xEC, .abs, .cpx⟩]

/-- The Instruction Catalog as the numeric opcode map gives it: the sixty defined bytes (R91). -/
def catalog : List CatalogEntry :=
  catalogRow0 ++ catalogRow4 ++ catalogRow6 ++ catalogRow7 ++ catalogRow8 ++ catalogRow9 ++
    catalogRowA ++ catalogRowB ++ catalogRowC ++ catalogRowD ++ catalogRowE

/-- `OpcodeTable(b)` (R87): the (mode, operation) pair of a byte, or `none`, the definitive "undefined". -/
def opcodeTable (b : Byte) : Option (Mode × Operation) :=
  (catalog.find? (fun e => e.opcode == b)).map (fun e => (e.mode, e.operation))

/-- Puts an operation and an operand together. `none` is a pair that stands for no instruction: an operation with a
mode it has no rule for (R90, R130). -/
def Instr.ofParts (op : Operation) (o : Operand) : Option Instr :=
  match op with
  | .lda =>
    match o with
    | .imm v => some (.ldaImm v)
    | .zp b => some (.ldaZp b)
    | .zpx b => some (.ldaZpx b)
    | .abs w => some (.ldaAbs w)
    | .absx w => some (.ldaAbsx w)
    | .absy w => some (.ldaAbsy w)
    | .indx b => some (.ldaIndx b)
    | .indy b => some (.ldaIndy b)
    | _ => none
  | .ldx =>
    match o with
    | .imm v => some (.ldxImm v)
    | .zp b => some (.ldxZp b)
    | .zpy b => some (.ldxZpy b)
    | .abs w => some (.ldxAbs w)
    | .absy w => some (.ldxAbsy w)
    | _ => none
  | .ldy =>
    match o with
    | .imm v => some (.ldyImm v)
    | .zp b => some (.ldyZp b)
    | .zpx b => some (.ldyZpx b)
    | .abs w => some (.ldyAbs w)
    | .absx w => some (.ldyAbsx w)
    | _ => none
  | .sta =>
    match o with
    | .zp b => some (.staZp b)
    | .zpx b => some (.staZpx b)
    | .abs w => some (.staAbs w)
    | .absx w => some (.staAbsx w)
    | .absy w => some (.staAbsy w)
    | .indx b => some (.staIndx b)
    | .indy b => some (.staIndy b)
    | _ => none
  | .stx =>
    match o with
    | .zp b => some (.stxZp b)
    | .zpy b => some (.stxZpy b)
    | .abs w => some (.stxAbs w)
    | _ => none
  | .sty =>
    match o with
    | .zp b => some (.styZp b)
    | .zpx b => some (.styZpx b)
    | .abs w => some (.styAbs w)
    | _ => none
  | .adc =>
    match o with
    | .imm v => some (.adcImm v)
    | .zp b => some (.adcZp b)
    | .zpx b => some (.adcZpx b)
    | .abs w => some (.adcAbs w)
    | .absx w => some (.adcAbsx w)
    | .absy w => some (.adcAbsy w)
    | .indx b => some (.adcIndx b)
    | .indy b => some (.adcIndy b)
    | _ => none
  | .cmp =>
    match o with
    | .imm v => some (.cmpImm v)
    | .zp b => some (.cmpZp b)
    | .zpx b => some (.cmpZpx b)
    | .abs w => some (.cmpAbs w)
    | .absx w => some (.cmpAbsx w)
    | .absy w => some (.cmpAbsy w)
    | .indx b => some (.cmpIndx b)
    | .indy b => some (.cmpIndy b)
    | _ => none
  | .cpx =>
    match o with
    | .imm v => some (.cpxImm v)
    | .zp b => some (.cpxZp b)
    | .abs w => some (.cpxAbs w)
    | _ => none
  | .cpy =>
    match o with
    | .imm v => some (.cpyImm v)
    | .zp b => some (.cpyZp b)
    | .abs w => some (.cpyAbs w)
    | _ => none
  | .inx =>
    match o with
    | .imp => some .inx
    | _ => none
  | .dex =>
    match o with
    | .imp => some .dex
    | _ => none
  | .tax =>
    match o with
    | .imp => some .tax
    | _ => none
  | .bne =>
    match o with
    | .rel d => some (.bne d)
    | _ => none
  | .jmp =>
    match o with
    | .abs w => some (.jmpAbs w)
    | .ind w => some (.jmpInd w)
    | _ => none
  | .brk =>
    match o with
    | .imp => some .brk
    | _ => none

/-! ## The decoder -/

/-- Why bytes do not decode: no byte at all, an opcode byte with no table entry (R93), too few operand bytes after the
opcode, or a table entry whose mode its operation has no rule for (R130). -/
inductive DecodeError where
  | noBytes
  | undefinedOpcode (b : Byte)
  | truncated (b : Byte)
  | modeMismatch (b : Byte)
  deriving DecidableEq, Repr

/-- What the decoder answers: an instruction and the bytes after it, or a rejection by name. -/
inductive DecodeResult where
  | ok (i : Instr) (rest : List Byte)
  | error (e : DecodeError)
  deriving DecidableEq, Repr

/-- Takes the operand bytes of a mode from a list: b1, b2 (0 where the mode consumes none) and what follows. -/
def takeOperandBytes : Nat → List Byte → Option (Byte × Byte × List Byte)
  | 0, bs => some (0, 0, bs)
  | 1, b1 :: bs => some (b1, 0, bs)
  | 2, b1 :: b2 :: bs => some (b1, b2, bs)
  | _, _ => none

/-- The decoder: the opcode byte is looked up in the table, the mode says how many operand bytes follow (R80, R87). -/
def decode : List Byte → DecodeResult
  | [] => .error .noBytes
  | op :: bs =>
    match opcodeTable op with
    | none => .error (.undefinedOpcode op)
    | some (mode, operation) =>
      match takeOperandBytes mode.operandBytes bs with
      | none => .error (.truncated op)
      | some (b1, b2, rest) =>
        match Instr.ofParts operation (Operand.ofBytes mode b1 b2) with
        | none => .error (.modeMismatch op)
        | some i => .ok i rest

/-! ## The encoder -/

/-- The opcode byte of an instruction: the entry of the catalog matrix for its operation and mode (R90). -/
def Instr.opcode : Instr → Byte
  | .ldaImm _ => 0xA9
  | .ldaZp _ => 0xA5
  | .ldaZpx _ => 0xB5
  | .ldaAbs _ => 0xAD
  | .ldaAbsx _ => 0xBD
  | .ldaAbsy _ => 0xB9
  | .ldaIndx _ => 0xA1
  | .ldaIndy _ => 0xB1
  | .ldxImm _ => 0xA2
  | .ldxZp _ => 0xA6
  | .ldxZpy _ => 0xB6
  | .ldxAbs _ => 0xAE
  | .ldxAbsy _ => 0xBE
  | .ldyImm _ => 0xA0
  | .ldyZp _ => 0xA4
  | .ldyZpx _ => 0xB4
  | .ldyAbs _ => 0xAC
  | .ldyAbsx _ => 0xBC
  | .staZp _ => 0x85
  | .staZpx _ => 0x95
  | .staAbs _ => 0x8D
  | .staAbsx _ => 0x9D
  | .staAbsy _ => 0x99
  | .staIndx _ => 0x81
  | .staIndy _ => 0x91
  | .stxZp _ => 0x86
  | .stxZpy _ => 0x96
  | .stxAbs _ => 0x8E
  | .styZp _ => 0x84
  | .styZpx _ => 0x94
  | .styAbs _ => 0x8C
  | .adcImm _ => 0x69
  | .adcZp _ => 0x65
  | .adcZpx _ => 0x75
  | .adcAbs _ => 0x6D
  | .adcAbsx _ => 0x7D
  | .adcAbsy _ => 0x79
  | .adcIndx _ => 0x61
  | .adcIndy _ => 0x71
  | .cmpImm _ => 0xC9
  | .cmpZp _ => 0xC5
  | .cmpZpx _ => 0xD5
  | .cmpAbs _ => 0xCD
  | .cmpAbsx _ => 0xDD
  | .cmpAbsy _ => 0xD9
  | .cmpIndx _ => 0xC1
  | .cmpIndy _ => 0xD1
  | .cpxImm _ => 0xE0
  | .cpxZp _ => 0xE4
  | .cpxAbs _ => 0xEC
  | .cpyImm _ => 0xC0
  | .cpyZp _ => 0xC4
  | .cpyAbs _ => 0xCC
  | .inx => 0xE8
  | .dex => 0xCA
  | .tax => 0xAA
  | .bne _ => 0xD0
  | .jmpAbs _ => 0x4C
  | .jmpInd _ => 0x6C
  | .brk => 0x00

/-- The operand bytes of an operand, in ascending address order; a 16-bit field low byte first (R81 to R83). -/
def Operand.bytes : Operand → List Byte
  | .imp => []
  | .imm b | .zp b | .zpx b | .zpy b | .indx b | .indy b | .rel b => [b]
  | .abs w | .absx w | .absy w | .ind w => [lowByte w, highByte w]

/-- The mode of an instruction. -/
def Instr.mode (i : Instr) : Mode :=
  i.operand.mode

/-- The length of an instruction in bytes (R80). -/
def Instr.length (i : Instr) : Nat :=
  i.mode.length

/-- The bytes of an instruction at ascending addresses: the opcode byte, then the operand bytes (R80). -/
def encode (i : Instr) : List Byte :=
  i.opcode :: i.operand.bytes

/-! ## The host's entry point -/

/-- The bytes of an instruction word as spec/opcode_table.json numbers its bits: byte k of the word is the byte at offset
k, every bit above `nbits` is 0, up to the longest instruction (3 bytes). -/
def tableWordBytes (nbits w : Nat) : List Byte :=
  let v := w % 2 ^ nbits
  [BitVec.ofNat 8 v, BitVec.ofNat 8 (v / 256), BitVec.ofNat 8 (v / 65536)]

/-- The instruction the decoder reads from an opcode-table word. -/
def decodeTableWord (nbits w : Nat) : Option Instr :=
  match decode (tableWordBytes nbits w) with
  | .ok i _ => some i
  | .error _ => none

end Sys2Proof
end

