-- ==== Sys2Proof/Machine/State.lean ====
section
/-! DEFINITION. The complete state of one machine instance (spec/10_state.md R20, R21), as plain data; the reasons a
step can stop; the state after reset (R37, spec/70_reset_and_hazards.md R250). -/

namespace Sys2Proof.Machine

/-- `RUN` (R32). `halted` and `faulted` are terminal: only a reset leaves them. -/
inductive RunState where
  | running
  | halted
  | faulted
  deriving DecidableEq, Repr

/-- `FAULT_KIND` (R33): the spec's codes 0, 1 and 2, in this order. -/
inductive FaultKind where
  | none
  | undefinedOpcode
  | resolverModeMismatch
  deriving DecidableEq, Repr

/-- `MEM` (R34): 65536 bytes, zero at reset. Held as the list of the cells that differ from 0x00, by strictly rising
address; `Memory.wf` says so. Reading and writing are in Machine/Ops.lean. -/
abbrev Memory := List Host.Cell

/-- The state (R20). -/
structure State where
  /-- `A`, the accumulator (R22). -/
  a : Byte
  /-- `X`, index-X (R23). -/
  x : Byte
  /-- `Y`, index-Y (R24). -/
  y : Byte
  /-- `S`, the stack pointer (R25): no instruction reads or writes it. -/
  sp : Byte
  /-- `P`, the status register (R27): N bit 7, V bit 6, bits 5 to 2 reserved, Z bit 1, C bit 0. -/
  p : Byte
  /-- `PC`, the program counter (R31). -/
  pc : Addr
  /-- `RUN` (R32). -/
  run : RunState
  /-- `FAULT_KIND` (R33). -/
  faultKind : FaultKind
  /-- `FAULT_OPCODE` (R33). -/
  faultOpcode : Byte
  /-- `FAULT_ADDR` (R33). -/
  faultAddr : Addr
  /-- `MEM` (R34). -/
  mem : Memory
  deriving DecidableEq, Repr

/-- A stop outside the state: there is none. The two faults of the machine (spec/60_exceptions.md R221, R223) have an entry
the spec describes (R222), so each is a NEXT state with `run = faulted` and the latches written; nothing else faults
(R228). Nobody raises a value of this type: it has none. Safe; log 5. -/
inductive Fault where
  deriving DecidableEq, Repr

/-- Why the model has no meaning for an instruction. -/
inductive Refusal where
  /-- An instruction that has no meaning yet; raised by a refused arm of `exec` only, of which there are none. Safe. -/
  | notModelled (mnemonic : String)
  deriving DecidableEq, Repr

/-- How a meaning and a step end. -/
abbrev Result := Host.Outcome State Fault Refusal

/-- The reset state for given values of the open parameters `RESET_PC` and `RESET_P` (R37, R250). A, X and Y are 0x00 by
the spec's decision D8 (log 3). -/
def State.resetWith (resetPc : Addr) (resetP : Byte) : State where
  a := 0x00
  x := 0x00
  y := 0x00
  sp := Config.resetS
  p := resetP
  pc := resetPc
  run := .running
  faultKind := .none
  faultOpcode := 0x00
  faultAddr := 0x0000
  mem := []

/-- The machine right after reset, at the parameter values Config names (logs 1 and 2). -/
def State.reset : State :=
  State.resetWith Config.resetPc Config.resetP

end Sys2Proof.Machine
end

