-- ==== Sys2Proof/Machine/Flags.lean ====
section
/-! DEFINITION. The status register's flags and every flag computation (spec/10_state.md R27, R28; spec/00_scope.md R13;
spec/42_add_compare.md R171, R173 to R175). A flag an operation does not write keeps its value, the reserved bits 5 to 2
included (R16, R30). -/

namespace Sys2Proof.Machine

/-- The four live flags (R27). -/
inductive Flag where
  | c
  | z
  | v
  | n
  deriving DecidableEq, Repr

/-- The bit of P that holds a flag (R27; the positions are the spec's decision D5, log 14). -/
def Flag.bit : Flag → Nat
  | .c => 0
  | .z => 1
  | .v => 6
  | .n => 7

/-- Reads one flag of a P value. -/
def getFlag (f : Flag) (p : Byte) : Bool :=
  p.getLsbD f.bit

/-- The P value with one flag written, all other bits kept (R28). -/
def setFlag (f : Flag) (b : Bool) (p : Byte) : Byte :=
  if b then p ||| (1#8 <<< f.bit) else p &&& ~~~(1#8 <<< f.bit)

/-- `SetZN(v)` on a P value (R13): Z is `v == 0`, N is bit 7 of v. -/
def setZN (v : Byte) (p : Byte) : Byte :=
  setFlag .n (v.getLsbD 7) (setFlag .z (v == 0) p)

/-- The exact sum of ADC, 0 to 511 (R171). -/
def adcSum (a0 operand : Byte) (carry : Bool) : Nat :=
  a0.toNat + operand.toNat + carry.toNat

/-- The result of ADC: the sum modulo 256 (R171). -/
def adcResult (a0 operand : Byte) (carry : Bool) : Byte :=
  BitVec.ofNat 8 (adcSum a0 operand carry)

/-- C of ADC: the exact sum is above 255 (R171). -/
def adcCarry (a0 operand : Byte) (carry : Bool) : Bool :=
  decide (adcSum a0 operand carry > 255)

/-- V of ADC: the addends share bit 7 and the result's bit 7 differs from it (R171); cleared otherwise by the spec's
decision D13 (log 15). -/
def adcOverflow (a0 operand : Byte) (carry : Bool) : Bool :=
  (a0.getLsbD 7 == operand.getLsbD 7) && ((adcResult a0 operand carry).getLsbD 7 != a0.getLsbD 7)

/-- P after ADC: C, V, Z and N rewritten (R171). -/
def adcFlags (a0 operand : Byte) (p : Byte) : Byte :=
  let c := getFlag .c p
  setZN (adcResult a0 operand c)
    (setFlag .v (adcOverflow a0 operand c) (setFlag .c (adcCarry a0 operand c) p))

/-- P after a compare of a register with an operand: C is `r >= operand` unsigned, Z and N come from the wrapped
difference, V and the reserved bits are kept (R173 to R175). -/
def compareFlags (r operand : Byte) (p : Byte) : Byte :=
  setZN (r - operand) (setFlag .c (decide (operand.toNat ≤ r.toNat)) p)

end Sys2Proof.Machine
end

