-- ==== Sys2Proof/Machine/Ops.lean ====
section
/-! DEFINITION. The named operations over registers and memory; entering a fault. Every reader and writer of the state
goes through these. -/

namespace Sys2Proof.Machine

/-! ## Memory: plain storage of 65536 bytes (spec/20_memory.md R50, R56) -/

/-- What an address that the list does not hold reads as: memory is zero at reset (spec/10_state.md R34). -/
def Memory.unlisted : Byte := 0x00

/-- The byte at an address. -/
def Memory.read : Memory → Nat → Byte
  | [], _ => Memory.unlisted
  | (b, v) :: rest, a => if b = a then v else Memory.read rest a

/-- The list with the cell of an address put in its place, or taken out where the byte is what an unlisted address reads
as: the canonical form is kept. -/
def Memory.write : Memory → Nat → Byte → Memory
  | [], a, v => if v = Memory.unlisted then [] else [(a, v)]
  | (b, w) :: rest, a, v =>
    if a < b then
      if v = Memory.unlisted then (b, w) :: rest else (a, v) :: (b, w) :: rest
    else if a = b then
      if v = Memory.unlisted then rest else (a, v) :: rest
    else (b, w) :: Memory.write rest a v

/-- The cells of a list lie above a bound, rise strictly, are inside the address space and are not the unlisted value. -/
def Memory.wfFrom : Nat → Memory → Bool
  | _, [] => true
  | lo, (a, v) :: rest =>
    decide (lo ≤ a) && decide (a < Config.memSize) && (v != Memory.unlisted) && Memory.wfFrom (a + 1) rest

/-- The canonical form: equal memories are equal lists. -/
def Memory.wf (m : Memory) : Bool :=
  Memory.wfFrom 0 m

/-! ## The state's fields -/

/-- A <- v. -/
def State.setA (s : State) (v : Byte) : State := { s with a := v }
/-- X <- v. -/
def State.setX (s : State) (v : Byte) : State := { s with x := v }
/-- Y <- v. -/
def State.setY (s : State) (v : Byte) : State := { s with y := v }
/-- S <- v: only the host writes S (spec/10_state.md R25). -/
def State.setSp (s : State) (v : Byte) : State := { s with sp := v }
/-- P <- v. -/
def State.setP (s : State) (v : Byte) : State := { s with p := v }
/-- PC <- v. -/
def State.setPc (s : State) (v : Addr) : State := { s with pc := v }
/-- RUN <- r. -/
def State.setRun (s : State) (r : RunState) : State := { s with run := r }
/-- MEM <- m. -/
def State.setMem (s : State) (m : Memory) : State := { s with mem := m }

/-- `MemRead(a, 1)` (spec/00_scope.md R12). -/
def State.readByte (s : State) (a : Addr) : Byte :=
  s.mem.read a.toNat

/-- `MemWrite(a, 1, v)` (spec/00_scope.md R12). -/
def State.writeByte (s : State) (a : Addr) (v : Byte) : State :=
  s.setMem (s.mem.write a.toNat v)

/-- A little-endian 16-bit value read as two one-byte reads, low byte then high byte, at two given addresses
(spec/20_memory.md R54, R57, R58). -/
def State.readWord (s : State) (lo hi : Addr) : Addr :=
  word16 (s.readByte lo) (s.readByte hi)

/-! ## Address arithmetic -/

/-- `zext_16` (spec/00_scope.md R10). -/
def zext16 (b : Byte) : Addr :=
  b.setWidth 16

/-- `sext_16` (spec/00_scope.md R10): b below 0x80, else 0xFF00 + b. -/
def sext16 (b : Byte) : Addr :=
  if b.toNat < 0x80 then zext16 b else 0xFF00 + zext16 b

/-! ## Register operations shared by the instructions -/

/-- Load a value into A and update Z and N from it. -/
def State.loadA (s : State) (v : Byte) : State :=
  (s.setA v).setP (setZN v s.p)

/-- Load a value into X and update Z and N from it. -/
def State.loadX (s : State) (v : Byte) : State :=
  (s.setX v).setP (setZN v s.p)

/-- Load a value into Y and update Z and N from it. -/
def State.loadY (s : State) (v : Byte) : State :=
  (s.setY v).setP (setZN v s.p)

/-- Add an operand and the carry to A (spec/42_add_compare.md R171). -/
def State.addToA (s : State) (operand : Byte) : State :=
  (s.setA (adcResult s.a operand (getFlag .c s.p))).setP (adcFlags s.a operand s.p)

/-- Compare a register's value with an operand: only C, Z and N change (spec/42_add_compare.md R173 to R175). -/
def State.compareWith (s : State) (r operand : Byte) : State :=
  s.setP (compareFlags r operand s.p)

/-! ## Entering a fault -/

/-- `raise` (spec/60_exceptions.md R222, R223): the latches are written and RUN becomes Faulted; nothing is pushed, no
mode changes, control goes nowhere. The PC stays where the opcode fetch left it (the spec's decision D22, log 15).
There is no return from a fault (R224). -/
def State.raiseFault (s : State) (kind : FaultKind) (op : Byte) (a0 : Addr) : State :=
  { s with run := .faulted, faultKind := kind, faultOpcode := op, faultAddr := a0 }

end Sys2Proof.Machine
end

