-- ==== Sys2Proof/Machine/Operands.lean ====
section
/-! DEFINITION. The operand resolver: the twelve addressing modes (spec/40_sequencer_and_modes.md R114 to R129). An
`Instr` already holds its operand bytes, fetched before anything else of the instruction is read (R61), so each mode is a
function of the operand field and the state. -/

namespace Sys2Proof.Machine

/-! ## Effective addresses, one function per mode -/

/-- Zero-page: high byte 0 (R121). -/
def eaZp (b : Byte) : Addr :=
  zext16 b

/-- Zero-page,X: the sum wraps inside the zero page (R122). -/
def eaZpx (b : Byte) (s : State) : Addr :=
  zext16 (b + s.x)

/-- Zero-page,Y: as zero-page,X with Y (R123). -/
def eaZpy (b : Byte) (s : State) : Addr :=
  zext16 (b + s.y)

/-- Absolute (R124). -/
def eaAbs (w : Addr) : Addr :=
  w

/-- Absolute,X: a 16-bit sum modulo 65536 (R125; decision D14, log 15). -/
def eaAbsx (w : Addr) (s : State) : Addr :=
  w + zext16 s.x

/-- Absolute,Y: as absolute,X with Y (R126). -/
def eaAbsy (w : Addr) (s : State) : Addr :=
  w + zext16 s.y

/-- Indirect: the target is read at the pointer and the next address modulo 65536 (R127, R58; decision D14, log 15). -/
def eaInd (w : Addr) (s : State) : Addr :=
  s.readWord w (w + 1)

/-- `ZpNext(p)` of R128 for a given `ZP_PTR_HI_WRAP`: the address of the high byte of a zero-page pointer whose low byte
is at b. The parameter matters only at 0xFF, where true gives 0x0000 and false gives 0x0100 (R58). -/
def zpNextFor (wrap : Bool) (b : Byte) : Addr :=
  if b = 0xFF then (if wrap then 0x0000 else 0x0100) else zext16 b + 1

/-- `ZpNext(p)` of R128 with the machine's own parameter (log 4). -/
def zpNext (b : Byte) : Addr :=
  zpNextFor Config.zpPtrHiWrap b

/-- The zero-page byte address of the pointer of indexed-indirect (X): masked to page 0 (R128). -/
def ptrIndx (b : Byte) (s : State) : Byte :=
  b + s.x

/-- Indexed-indirect (X) (R128). -/
def eaIndx (b : Byte) (s : State) : Addr :=
  s.readWord (zext16 (ptrIndx b s)) (zpNext (ptrIndx b s))

/-- Indirect-indexed (Y): Y is added after the indirection, modulo 65536 (R129). -/
def eaIndy (b : Byte) (s : State) : Addr :=
  s.readWord (zext16 b) (zpNext b) + zext16 s.y

/-! ## The resolver as one function -/

/-- The effective address an operand resolves to; `none` for the modes that have none (R114, R118 to R129). -/
def Operand.ea (o : Operand) (s : State) : Option Addr :=
  match o with
  | .imm _ => none
  | .zp b => some (eaZp b)
  | .zpx b => some (eaZpx b s)
  | .zpy b => some (eaZpy b s)
  | .abs w => some (eaAbs w)
  | .absx w => some (eaAbsx w s)
  | .absy w => some (eaAbsy w s)
  | .ind w => some (eaInd w s)
  | .indx b => some (eaIndx b s)
  | .indy b => some (eaIndy b s)
  | .imp => none
  | .rel _ => none

/-- `WantsValue` (R116): whether an operation consumes an operand value. BRK never reaches the resolver. -/
def Operation.wantsValue : Operation → Bool
  | .lda | .ldx | .ldy | .adc | .cmp | .cpx | .cpy | .bne => true
  | .sta | .stx | .sty | .jmp | .inx | .dex | .tax | .brk => false

/-- The operand value an operand yields when one is wanted: the literal byte, or the byte at the effective address; the
indirect mode has none (R114, R118 to R129). -/
def Operand.value (o : Operand) (want : Bool) (s : State) : Option Byte :=
  match o with
  | .imm v => some v
  | .rel d => some d
  | .imp => none
  | .ind _ => none
  | .zp b => if want then some (s.readByte (eaZp b)) else none
  | .zpx b => if want then some (s.readByte (eaZpx b s)) else none
  | .zpy b => if want then some (s.readByte (eaZpy b s)) else none
  | .abs w => if want then some (s.readByte (eaAbs w)) else none
  | .absx w => if want then some (s.readByte (eaAbsx w s)) else none
  | .absy w => if want then some (s.readByte (eaAbsy w s)) else none
  | .indx b => if want then some (s.readByte (eaIndx b s)) else none
  | .indy b => if want then some (s.readByte (eaIndy b s)) else none

/-- The effective address of an instruction in a state. -/
def effectiveAddress (i : Instr) (s : State) : Option Addr :=
  Operand.ea i.operand s

/-- The operand value of an instruction in a state. -/
def operandValue (i : Instr) (s : State) : Option Byte :=
  Operand.value i.operand (Operation.wantsValue i.operation) s

end Sys2Proof.Machine
end

