-- ==== Sys2Proof/Machine/AddCompare.lean ====
section
/-! DEFINITION. Add with carry and the compares (spec/42_add_compare.md R171, R173 to R175).
In every meaning the state `s` is the one in which the instruction's bytes have been consumed: PC already points past the
instruction (spec/40_sequencer_and_modes.md R113(d), R115; log 9). -/

namespace Sys2Proof.Machine

/-- ADC immediate (R171, R119). -/
def execAdcImm (imm : Byte) (s : State) : Result :=
  .next (s.addToA imm)

/-- ADC zero-page (R171, R121). -/
def execAdcZp (zp : Byte) (s : State) : Result :=
  .next (s.addToA (s.readByte (eaZp zp)))

/-- ADC zero-page,X (R171, R122). -/
def execAdcZpx (zp : Byte) (s : State) : Result :=
  .next (s.addToA (s.readByte (eaZpx zp s)))

/-- ADC absolute (R171, R124). -/
def execAdcAbs (addr : Addr) (s : State) : Result :=
  .next (s.addToA (s.readByte (eaAbs addr)))

/-- ADC absolute,X (R171, R125). -/
def execAdcAbsx (addr : Addr) (s : State) : Result :=
  .next (s.addToA (s.readByte (eaAbsx addr s)))

/-- ADC absolute,Y (R171, R126). -/
def execAdcAbsy (addr : Addr) (s : State) : Result :=
  .next (s.addToA (s.readByte (eaAbsy addr s)))

/-- ADC (zp,X) (R171, R128). -/
def execAdcIndx (zp : Byte) (s : State) : Result :=
  .next (s.addToA (s.readByte (eaIndx zp s)))

/-- ADC (zp),Y (R171, R129). -/
def execAdcIndy (zp : Byte) (s : State) : Result :=
  .next (s.addToA (s.readByte (eaIndy zp s)))

/-- CMP immediate (R173, R119). -/
def execCmpImm (imm : Byte) (s : State) : Result :=
  .next (s.compareWith s.a imm)

/-- CMP zero-page (R173, R121). -/
def execCmpZp (zp : Byte) (s : State) : Result :=
  .next (s.compareWith s.a (s.readByte (eaZp zp)))

/-- CMP zero-page,X (R173, R122). -/
def execCmpZpx (zp : Byte) (s : State) : Result :=
  .next (s.compareWith s.a (s.readByte (eaZpx zp s)))

/-- CMP absolute (R173, R124). -/
def execCmpAbs (addr : Addr) (s : State) : Result :=
  .next (s.compareWith s.a (s.readByte (eaAbs addr)))

/-- CMP absolute,X (R173, R125). -/
def execCmpAbsx (addr : Addr) (s : State) : Result :=
  .next (s.compareWith s.a (s.readByte (eaAbsx addr s)))

/-- CMP absolute,Y (R173, R126). -/
def execCmpAbsy (addr : Addr) (s : State) : Result :=
  .next (s.compareWith s.a (s.readByte (eaAbsy addr s)))

/-- CMP (zp,X) (R173, R128). -/
def execCmpIndx (zp : Byte) (s : State) : Result :=
  .next (s.compareWith s.a (s.readByte (eaIndx zp s)))

/-- CMP (zp),Y (R173, R129). -/
def execCmpIndy (zp : Byte) (s : State) : Result :=
  .next (s.compareWith s.a (s.readByte (eaIndy zp s)))

/-- CPX immediate (R174, R119). -/
def execCpxImm (imm : Byte) (s : State) : Result :=
  .next (s.compareWith s.x imm)

/-- CPX zero-page (R174, R121). -/
def execCpxZp (zp : Byte) (s : State) : Result :=
  .next (s.compareWith s.x (s.readByte (eaZp zp)))

/-- CPX absolute (R174, R124). -/
def execCpxAbs (addr : Addr) (s : State) : Result :=
  .next (s.compareWith s.x (s.readByte (eaAbs addr)))

/-- CPY immediate (R175, R119). -/
def execCpyImm (imm : Byte) (s : State) : Result :=
  .next (s.compareWith s.y imm)

/-- CPY zero-page (R175, R121). -/
def execCpyZp (zp : Byte) (s : State) : Result :=
  .next (s.compareWith s.y (s.readByte (eaZp zp)))

/-- CPY absolute (R175, R124). -/
def execCpyAbs (addr : Addr) (s : State) : Result :=
  .next (s.compareWith s.y (s.readByte (eaAbs addr)))

end Sys2Proof.Machine
end

