-- ==== Sys2Proof/Machine/Control.lean ====
section
/-! DEFINITION. Control transfer and halt: BNE, JMP, BRK (spec/44_control.md R200 to R202). In every meaning PC already
points past the instruction (log 9). -/

namespace Sys2Proof.Machine

/-- BNE: if Z is clear, the sign-extended displacement is added to the PC, which is past the branch; no flag changes
(R200). -/
def execBne (disp : Byte) (s : State) : Result :=
  .next (if getFlag .z s.p then s else s.setPc (s.pc + sext16 disp))

/-- JMP absolute (R201, R124). -/
def execJmpAbs (addr : Addr) (s : State) : Result :=
  .next (s.setPc (eaAbs addr))

/-- JMP indirect (R201, R127). -/
def execJmpInd (ptr : Addr) (s : State) : Result :=
  .next (s.setPc (eaInd ptr s))

/-- BRK: RUN <- Halted and nothing else; PC is past the byte 0x00 (R202). -/
def execBrk (s : State) : Result :=
  .next (s.setRun .halted)

end Sys2Proof.Machine
end

