-- ==== Sys2Proof/Machine/Loads.lean ====
section
/-! DEFINITION. The loads LDA, LDX, LDY (spec/41_load_store.md R150 to R152): register <- operand, Z and N from it.
In every meaning the state `s` is the one in which the instruction's bytes have been consumed: PC already points past the
instruction (spec/40_sequencer_and_modes.md R113(d), R115; log 9). -/

namespace Sys2Proof.Machine

/-- LDA immediate (R150, R119). -/
def execLdaImm (imm : Byte) (s : State) : Result :=
  .next (s.loadA imm)

/-- LDA zero-page (R150, R121). -/
def execLdaZp (zp : Byte) (s : State) : Result :=
  .next (s.loadA (s.readByte (eaZp zp)))

/-- LDA zero-page,X (R150, R122). -/
def execLdaZpx (zp : Byte) (s : State) : Result :=
  .next (s.loadA (s.readByte (eaZpx zp s)))

/-- LDA absolute (R150, R124). -/
def execLdaAbs (addr : Addr) (s : State) : Result :=
  .next (s.loadA (s.readByte (eaAbs addr)))

/-- LDA absolute,X (R150, R125). -/
def execLdaAbsx (addr : Addr) (s : State) : Result :=
  .next (s.loadA (s.readByte (eaAbsx addr s)))

/-- LDA absolute,Y (R150, R126). -/
def execLdaAbsy (addr : Addr) (s : State) : Result :=
  .next (s.loadA (s.readByte (eaAbsy addr s)))

/-- LDA (zp,X) (R150, R128). -/
def execLdaIndx (zp : Byte) (s : State) : Result :=
  .next (s.loadA (s.readByte (eaIndx zp s)))

/-- LDA (zp),Y (R150, R129). -/
def execLdaIndy (zp : Byte) (s : State) : Result :=
  .next (s.loadA (s.readByte (eaIndy zp s)))

/-- LDX immediate (R151, R119). -/
def execLdxImm (imm : Byte) (s : State) : Result :=
  .next (s.loadX imm)

/-- LDX zero-page (R151, R121). -/
def execLdxZp (zp : Byte) (s : State) : Result :=
  .next (s.loadX (s.readByte (eaZp zp)))

/-- LDX zero-page,Y (R151, R123). -/
def execLdxZpy (zp : Byte) (s : State) : Result :=
  .next (s.loadX (s.readByte (eaZpy zp s)))

/-- LDX absolute (R151, R124). -/
def execLdxAbs (addr : Addr) (s : State) : Result :=
  .next (s.loadX (s.readByte (eaAbs addr)))

/-- LDX absolute,Y (R151, R126). -/
def execLdxAbsy (addr : Addr) (s : State) : Result :=
  .next (s.loadX (s.readByte (eaAbsy addr s)))

/-- LDY immediate (R152, R119). -/
def execLdyImm (imm : Byte) (s : State) : Result :=
  .next (s.loadY imm)

/-- LDY zero-page (R152, R121). -/
def execLdyZp (zp : Byte) (s : State) : Result :=
  .next (s.loadY (s.readByte (eaZp zp)))

/-- LDY zero-page,X (R152, R122). -/
def execLdyZpx (zp : Byte) (s : State) : Result :=
  .next (s.loadY (s.readByte (eaZpx zp s)))

/-- LDY absolute (R152, R124). -/
def execLdyAbs (addr : Addr) (s : State) : Result :=
  .next (s.loadY (s.readByte (eaAbs addr)))

/-- LDY absolute,X (R152, R125). -/
def execLdyAbsx (addr : Addr) (s : State) : Result :=
  .next (s.loadY (s.readByte (eaAbsx addr s)))

end Sys2Proof.Machine
end

