-- ==== Sys2Proof/Machine/RegisterOps.lean ====
section
/-! DEFINITION. The register operations INX, DEX, TAX (spec/43_register_ops.md R190 to R192). In every meaning PC already
points past the instruction (log 9). -/

namespace Sys2Proof.Machine

/-- INX: X + 1 modulo 256, Z and N from it, C and V kept (R190). -/
def execInx (s : State) : Result :=
  .next (s.loadX (s.x + 1))

/-- DEX: X - 1 modulo 256, Z and N from it, C and V kept (R191). -/
def execDex (s : State) : Result :=
  .next (s.loadX (s.x - 1))

/-- TAX: X <- A, Z and N from it (R192). -/
def execTax (s : State) : Result :=
  .next (s.loadX s.a)

end Sys2Proof.Machine
end

