-- ==== Sys2Proof/Machine/Stores.lean ====
section
/-! DEFINITION. The stores STA, STX, STY (spec/41_load_store.md R153 to R155): one byte written at the effective address, no flag.
In every meaning the state `s` is the one in which the instruction's bytes have been consumed: PC already points past the
instruction (spec/40_sequencer_and_modes.md R113(d), R115; log 9). -/

namespace Sys2Proof.Machine

/-- STA zero-page (R153, R121). -/
def execStaZp (zp : Byte) (s : State) : Result :=
  .next (s.writeByte (eaZp zp) s.a)

/-- STA zero-page,X (R153, R122). -/
def execStaZpx (zp : Byte) (s : State) : Result :=
  .next (s.writeByte (eaZpx zp s) s.a)

/-- STA absolute (R153, R124). -/
def execStaAbs (addr : Addr) (s : State) : Result :=
  .next (s.writeByte (eaAbs addr) s.a)

/-- STA absolute,X (R153, R125). -/
def execStaAbsx (addr : Addr) (s : State) : Result :=
  .next (s.writeByte (eaAbsx addr s) s.a)

/-- STA absolute,Y (R153, R126). -/
def execStaAbsy (addr : Addr) (s : State) : Result :=
  .next (s.writeByte (eaAbsy addr s) s.a)

/-- STA (zp,X) (R153, R128). -/
def execStaIndx (zp : Byte) (s : State) : Result :=
  .next (s.writeByte (eaIndx zp s) s.a)

/-- STA (zp),Y (R153, R129). -/
def execStaIndy (zp : Byte) (s : State) : Result :=
  .next (s.writeByte (eaIndy zp s) s.a)

/-- STX zero-page (R154, R121). -/
def execStxZp (zp : Byte) (s : State) : Result :=
  .next (s.writeByte (eaZp zp) s.x)

/-- STX zero-page,Y (R154, R123). -/
def execStxZpy (zp : Byte) (s : State) : Result :=
  .next (s.writeByte (eaZpy zp s) s.x)

/-- STX absolute (R154, R124). -/
def execStxAbs (addr : Addr) (s : State) : Result :=
  .next (s.writeByte (eaAbs addr) s.x)

/-- STY zero-page (R155, R121). -/
def execStyZp (zp : Byte) (s : State) : Result :=
  .next (s.writeByte (eaZp zp) s.y)

/-- STY zero-page,X (R155, R122). -/
def execStyZpx (zp : Byte) (s : State) : Result :=
  .next (s.writeByte (eaZpx zp s) s.y)

/-- STY absolute (R155, R124). -/
def execStyAbs (addr : Addr) (s : State) : Result :=
  .next (s.writeByte (eaAbs addr) s.y)

end Sys2Proof.Machine
end

