-- ==== Sys2Proof/Machine/Fetch.lean ====
section
/-! DEFINITION. The fetch and decode part of a step (spec/40_sequencer_and_modes.md R110, R113, R114): bytes are consumed
one by one through `fetch8`, which advances the PC. -/

namespace Sys2Proof.Machine

/-- `Fetch8()` (R110): the byte at PC, and the state with PC advanced modulo 65536. -/
def fetch8 (s : State) : Byte × State :=
  (s.readByte s.pc, s.setPc (s.pc + 1))

/-- The state after k instruction bytes have been consumed: PC is k further on, modulo 65536 (R115). -/
def State.skip (s : State) (k : Nat) : State :=
  s.setPc (s.pc + BitVec.ofNat 16 k)

/-- Fetches the operand bytes of a mode, low address first (R61); a byte the mode does not consume is 0 and is not
fetched. -/
def fetchOperandBytes (k : Nat) (s : State) : Byte × Byte × State :=
  match k with
  | 0 => (0, 0, s)
  | 1 =>
    let (b1, s1) := fetch8 s
    (b1, 0, s1)
  | _ =>
    let (b1, s1) := fetch8 s
    let (b2, s2) := fetch8 s1
    (b1, b2, s2)

/-- What the fetch and decode part of a step yields: an instruction to execute in a state whose PC is past it, or a fault
to raise, with the opcode byte, its address and the state after the opcode fetch. -/
inductive Fetched where
  | instr (i : Instr) (s : State)
  | fault (kind : FaultKind) (op : Byte) (a0 : Addr) (s : State)
  deriving DecidableEq, Repr

/-- The fetch and decode part of `Step()` (R110): the opcode byte is fetched, the halt sentinel is tested before the
table lookup (R113(a)), the operand bytes follow. A table entry whose mode its operation has no rule for is
`ResolverModeMismatch` (R130, R223), raised before any operand byte is consumed; with the fixed table there is none
(log 12). -/
def fetchInstr (s : State) : Fetched :=
  let a0 := s.pc
  let (op, s1) := fetch8 s
  if op = Config.haltOpcode then .instr .brk s1
  else
    match opcodeTable op with
    | none => .fault .undefinedOpcode op a0 s1
    | some (mode, operation) =>
      let (b1, b2, s2) := fetchOperandBytes mode.operandBytes s1
      match Instr.ofParts operation (Operand.ofBytes mode b1 b2) with
      | none => .fault .resolverModeMismatch op a0 s1
      | some i => .instr i s2

/-- The bytes at PC and the two addresses after it, modulo 65536: as many as the longest instruction has (R80). -/
def bytesAtPc (s : State) : List Byte :=
  [s.readByte s.pc, s.readByte (s.pc + 1), s.readByte (s.pc + 2)]

/-- A word of up to three bytes stored at an address and the two after it (modulo 65536), byte 0 first. -/
def State.placeWord (s : State) (nbits w : Nat) : State :=
  match tableWordBytes nbits w with
  | [b0, b1, b2] =>
    ((s.writeByte s.pc b0).writeByte (s.pc + 1) b1).writeByte (s.pc + 2) b2
  | _ => s

end Sys2Proof.Machine
end

