-- ==== Sys2Proof/Machine/Step.lean ====
section
/-! DEFINITION. One `Step()` (spec/40_sequencer_and_modes.md R110, R112). -/

namespace Sys2Proof.Machine

/-- Executes what the fetch yielded: the instruction, or the fault's entry (spec/60_exceptions.md R222), a next state. -/
def runFetched : Fetched → Host.Outcome State Fault Refusal
  | .instr i s => exec i s
  | .fault kind op a0 s => .next (s.raiseFault kind op a0)

/-- `Step()`: in Halted or Faulted nothing changes and nothing is fetched (R112, log 6); otherwise one transition of the
fetch-decode-execute cycle (R110). -/
def step (s : State) : Host.Outcome State Fault Refusal :=
  match s.run with
  | .running => runFetched (fetchInstr s)
  | .halted => .next s
  | .faulted => .next s

/-- The state with an instruction word placed where `step` fetches next: at the PC and the two addresses after it, with RUN
set to Running, which a step needs to fetch at all. Log 7. -/
def State.withFetchWord (s : State) (nbits w : Nat) : State :=
  (s.setRun .running).placeWord nbits w

end Sys2Proof.Machine
end

