-- ==== Sys2Proof/Machine/Access.lean ====
section
/-! DEFINITION. The memory accesses of one step, in the order of spec/20_memory.md R61: opcode byte, operand bytes, pointer
low byte and high byte, operand byte, then at most one write. A record computed from the state before the step; no meaning
reads it (log 13). -/

namespace Sys2Proof.Machine

/-- The addresses of the first k instruction bytes, ascending modulo 65536 (R57, R80). -/
def instrByteAddrs (a0 : Addr) (k : Nat) : List Addr :=
  (List.range k).map (fun n => a0 + BitVec.ofNat 16 n)

/-- The pointer reads of an operand, low byte then high byte (R61; the indirect modes only, R127 to R129). -/
def Operand.pointerReads (o : Operand) (s : State) : List Addr :=
  match o with
  | .ind w => [w, w + 1]
  | .indx b => [zext16 (ptrIndx b s), zpNext (ptrIndx b s)]
  | .indy b => [zext16 b, zpNext b]
  | .imm _ | .zp _ | .zpx _ | .zpy _ | .abs _ | .absx _ | .absy _ | .imp | .rel _ => []

/-- The read of `MEM[ea]`, made only by an operation that consumes an operand value (R61, R62). -/
def operandReads (i : Instr) (s : State) : List Addr :=
  if Operation.wantsValue i.operation then (effectiveAddress i s).toList else []

/-- The byte a store operation writes (spec/41_load_store.md R153 to R155); no other operation writes memory (R54). -/
def storedByte (op : Operation) (s : State) : Option Byte :=
  match op with
  | .sta => some s.a
  | .stx => some s.x
  | .sty => some s.y
  | .lda | .ldx | .ldy | .adc | .cmp | .cpx | .cpy | .inx | .dex | .tax | .bne | .jmp | .brk => none

/-- The write of an instruction: none, or one byte at the effective address (R54, R61). -/
def instrWrites (i : Instr) (s : State) : List (Addr × Byte) :=
  match storedByte i.operation s, effectiveAddress i s with
  | some v, some ea => [(ea, v)]
  | some _, none => []
  | none, _ => []

/-- Every address the core reads during a step, in order (R61, R117). -/
def stepReads (s : State) : List Addr :=
  match s.run with
  | .running =>
    match fetchInstr s with
    | .instr i t => instrByteAddrs s.pc i.length ++ Operand.pointerReads i.operand t ++ operandReads i t
    | .fault _ _ _ _ => [s.pc]
  | .halted => []
  | .faulted => []

/-- The bytes the core writes during a step: at most one (R54, R61). -/
def stepWrites (s : State) : List (Addr × Byte) :=
  match s.run with
  | .running =>
    match fetchInstr s with
    | .instr i t => instrWrites i t
    | .fault _ _ _ _ => []
  | .halted => []
  | .faulted => []

/-- A memory with a list of writes made in order. -/
def Memory.writeAll (m : Memory) (ws : List (Addr × Byte)) : Memory :=
  ws.foldl (fun m w => m.write w.1.toNat w.2) m

end Sys2Proof.Machine
end

