-- ==== Sys2Proof/Machine/HostPort.lean ====
section
/-! DEFINITION. What the host can do to the machine at an instruction boundary (spec/40_sequencer_and_modes.md R133,
spec/20_memory.md R63 to R65, spec/70_reset_and_hazards.md R250, R257): reset, step, run, and the memory and register ports.
`step` holds no host action (log 10). -/

namespace Sys2Proof.Machine

/-- The outcome of a step as reported to the host (R132). -/
inductive StepOutcome where
  | executed
  | halted
  | fault (kind : FaultKind) (op : Byte) (addr : Addr)
  deriving DecidableEq, Repr

/-- The outcome is a function of the state after the step: RUN and the fault latches (R132). -/
def State.outcome (s : State) : StepOutcome :=
  match s.run with
  | .running => .executed
  | .halted => .halted
  | .faulted => .fault s.faultKind s.faultOpcode s.faultAddr

/-- `Reset` (R250): every element of the state to its reset value, memory included, from any state. -/
def State.hostReset (resetPc : Addr) (resetP : Byte) (_ : State) : State :=
  State.resetWith resetPc resetP

/-- `Step` as a function on states: `step` never stops outside the state, so its second and third outcomes give the state
itself and are never met. -/
def State.stepped (s : State) : State :=
  match step s with
  | .next t => t
  | .fault r => nomatch r
  | .refused _ => s

/-- The state after n steps. -/
def State.stepMany (s : State) : Nat → State
  | 0 => s
  | n + 1 => (s.stepped).stepMany n

/-- `Run()` returns in t (R111): t is reached by steps each made while RUN was Running, and RUN is no longer Running. A run
that reaches no such state does not return. -/
def State.RunReturns (s t : State) : Prop :=
  ∃ n, s.stepMany n = t ∧ t.run ≠ .running ∧ ∀ k, k < n → (s.stepMany k).run = .running

/-- `Run()` with a bound on the steps; `none` says the bound was reached while RUN was Running, which is a property of the
bound and not of the machine (spec/93_implementation_defined.md I20). -/
def State.runWithin (s : State) : Nat → Option State
  | 0 => if s.run = .running then none else some s
  | n + 1 => if s.run = .running then (s.stepped).runWithin n else some s

/-- The registers the host can read (R64). -/
inductive RegName where
  | a | x | y | s | p | pc | run | faultKind | faultOpcode | faultAddr
  deriving DecidableEq, Repr

/-- What a register read gives. -/
inductive RegValue where
  | byte (v : Byte)
  | addr (v : Addr)
  | run (v : RunState)
  | kind (v : FaultKind)
  deriving DecidableEq, Repr

/-- The register writes the host can make: A, X, Y, S, P and PC, any value; RUN and the latches are not writable
(R64). -/
inductive RegWrite where
  | a (v : Byte)
  | x (v : Byte)
  | y (v : Byte)
  | s (v : Byte)
  | p (v : Byte)
  | pc (v : Addr)
  deriving DecidableEq, Repr

/-- `RegRead(r)` (R64). -/
def State.regRead (s : State) : RegName → RegValue
  | .a => .byte s.a
  | .x => .byte s.x
  | .y => .byte s.y
  | .s => .byte s.sp
  | .p => .byte s.p
  | .pc => .addr s.pc
  | .run => .run s.run
  | .faultKind => .kind s.faultKind
  | .faultOpcode => .byte s.faultOpcode
  | .faultAddr => .addr s.faultAddr

/-- `RegWrite(r, v)` (R64). -/
def State.regWrite (s : State) : RegWrite → State
  | .a v => s.setA v
  | .x v => s.setX v
  | .y v => s.setY v
  | .s v => s.setSp v
  | .p v => s.setP v
  | .pc v => s.setPc v

/-- The host's requests that change the state (R133, R257). A memory or register read changes nothing (R63, R64), and `Run`
is steps in a row (R111). -/
inductive HostRequest where
  | reset
  | step
  | memWrite (a : Addr) (v : Byte)
  | regWrite (w : RegWrite)
  deriving DecidableEq, Repr

/-- The state after a request, for a machine with given `RESET_PC` and `RESET_P`. -/
def State.serve (resetPc : Addr) (resetP : Byte) (s : State) : HostRequest → State
  | .reset => s.hostReset resetPc resetP
  | .step => s.stepped
  | .memWrite a v => s.writeByte a v
  | .regWrite w => s.regWrite w

/-- The state after a list of requests, in order (R66). -/
def State.serveAll (resetPc : Addr) (resetP : Byte) (s : State) : List HostRequest → State
  | [] => s
  | r :: rs => (s.serve resetPc resetP r).serveAll resetPc resetP rs

end Sys2Proof.Machine
end

