-- ==== Sys2Proof/Safety.lean ====
section
/-! DEFINITION. What counts as a good end of a run (spec/70_reset_and_hazards.md R256, spec/60_exceptions.md R224), and the
invariant of the machine's states. -/

namespace Sys2Proof.Machine

/-- The normal end of a run (R256). -/
def State.completed (s : State) : Bool :=
  s.run == .halted

/-- A safe state: Faulted is an abnormal end and never a successful final state (R224, R256). -/
def State.safe (s : State) : Bool :=
  s.run != .faulted

/-- The fault latches say what RUN says (spec/10_state.md R33): at their reset values unless Faulted, and in Faulted the kind
is UndefinedOpcode and the latched byte is one with no table entry (R221); ResolverModeMismatch is unreachable (R223). -/
def State.latchesAgree (s : State) : Bool :=
  match s.run with
  | .running => s.faultKind == .none && s.faultOpcode == 0x00 && s.faultAddr == 0x0000
  | .halted => s.faultKind == .none && s.faultOpcode == 0x00 && s.faultAddr == 0x0000
  | .faulted => s.faultKind == .undefinedOpcode && (opcodeTable s.faultOpcode).isNone

/-- The invariant: memory has its canonical form and the fault latches agree with RUN. -/
def State.Inv (s : State) : Prop :=
  s.mem.wf = true ∧ s.latchesAgree = true

end Sys2Proof.Machine
end

