-- ==== Sys2Proof/Certificates/Slice0/Obligations.lean ====
section
/-! DEFINITION. The statements for the provers. Each formalises what its docstring says; the rules and sections it rests on
are in OBLIGATIONS.json. In statements about `exec`, PC of the given state already points past the instruction. -/

open Sys2Proof Sys2Proof.Machine

/-- LDA in every mode loads the operand into A and rewrites Z and N only. LDA has exactly the opcode bytes, modes and
lengths of R150. In every one of its modes, from every state, it completes: A becomes the operand value, Z (bit 1 of
P) says whether it is 0, N (bit 7) is its bit 7, every other bit of P and every other element of the state, memory
included, is unchanged (PC already points past the instruction when exec runs). The opcode byte values are the
spec's own decision D3. Formalises: R150. -/
def Obligations.LdaLoadsOperand : Prop :=
  (∀ b m, opcodeTable b = some (m, .lda) ↔
    (b, m, m.length) ∈ [(0xA9, .imm, 2), (0xA5, .zp, 2), (0xB5, .zpx, 2), (0xAD, .abs, 3), (0xBD, .absx, 3),
      (0xB9, .absy, 3), (0xA1, .indx, 2), (0xB1, .indy, 2)]) ∧
  ∀ i s, i.operation = .lda → ∃ v p', operandValue i s = some v ∧ exec i s = .next { s with a := v, p := p' } ∧
    ∀ k, k < 8 → p'.getLsbD k = if k = 7 then v.getLsbD 7 else if k = 1 then decide (v = 0) else s.p.getLsbD k

/-- LDX in every mode loads the operand into X and rewrites Z and N only. LDX has exactly the opcode bytes, modes and
lengths of R151. In every one of its modes, from every state, it completes: X becomes the operand value, Z (bit 1 of
P) says whether it is 0, N (bit 7) is its bit 7, every other bit of P and every other element of the state, memory
included, is unchanged (PC already points past the instruction when exec runs). The opcode byte values are the
spec's own decision D3. Formalises: R151. -/
def Obligations.LdxLoadsOperand : Prop :=
  (∀ b m, opcodeTable b = some (m, .ldx) ↔
    (b, m, m.length) ∈ [(0xA2, .imm, 2), (0xA6, .zp, 2), (0xB6, .zpy, 2), (0xAE, .abs, 3), (0xBE, .absy, 3)]) ∧
  ∀ i s, i.operation = .ldx → ∃ v p', operandValue i s = some v ∧ exec i s = .next { s with x := v, p := p' } ∧
    ∀ k, k < 8 → p'.getLsbD k = if k = 7 then v.getLsbD 7 else if k = 1 then decide (v = 0) else s.p.getLsbD k

/-- LDY in every mode loads the operand into Y and rewrites Z and N only. LDY has exactly the opcode bytes, modes and
lengths of R152. In every one of its modes, from every state, it completes: Y becomes the operand value, Z (bit 1 of
P) says whether it is 0, N (bit 7) is its bit 7, every other bit of P and every other element of the state, memory
included, is unchanged (PC already points past the instruction when exec runs). The opcode byte values are the
spec's own decision D3. Formalises: R152. -/
def Obligations.LdyLoadsOperand : Prop :=
  (∀ b m, opcodeTable b = some (m, .ldy) ↔
    (b, m, m.length) ∈ [(0xA0, .imm, 2), (0xA4, .zp, 2), (0xB4, .zpx, 2), (0xAC, .abs, 3), (0xBC, .absx, 3)]) ∧
  ∀ i s, i.operation = .ldy → ∃ v p', operandValue i s = some v ∧ exec i s = .next { s with y := v, p := p' } ∧
    ∀ k, k < 8 → p'.getLsbD k = if k = 7 then v.getLsbD 7 else if k = 1 then decide (v = 0) else s.p.getLsbD k

/-- STA in every mode stores A at the effective address and changes nothing else. STA has exactly the opcode bytes,
modes and lengths of R153. In every one of its modes, from every state with canonical memory, it completes: the byte
at the address the resolver gives becomes A, every other byte of memory reads as before, memory stays canonical, the
old byte there is not read, and no register, flag or other element of the state changes. The opcode byte values are
the spec's own decision D3. Formalises: R153. -/
def Obligations.StaStoresRegister : Prop :=
  (∀ b m, opcodeTable b = some (m, .sta) ↔
    (b, m, m.length) ∈ [(0x85, .zp, 2), (0x95, .zpx, 2), (0x8D, .abs, 3), (0x9D, .absx, 3), (0x99, .absy, 3),
      (0x81, .indx, 2), (0x91, .indy, 2)]) ∧
  ∀ i s, i.operation = .sta → s.mem.wf = true → ∃ ea m', effectiveAddress i s = some ea ∧
    operandReads i s = [] ∧ exec i s = .next { s with mem := m' } ∧ m'.wf = true ∧ m'.read ea.toNat = s.a ∧
    ∀ a : Addr, a ≠ ea → m'.read a.toNat = s.mem.read a.toNat

/-- STX in every mode stores X at the effective address and changes nothing else. STX has exactly the opcode bytes,
modes and lengths of R154. In every one of its modes, from every state with canonical memory, it completes: the byte
at the address the resolver gives becomes X, every other byte of memory reads as before, memory stays canonical, and
no register, flag or other element of the state changes. Also, the old byte there is not read: that is not in R154
but in R62, the spec's decision D19, and is said of the access record (log 13, DESIGN CHOICE). What R154 does not
name is unchanged by R16, decision D12 (log 15). The opcode byte values are the spec's own decision D3 (log 14).
Formalises: 41_load_store.md section 2, STX; 20_memory.md section 3, operations that do not consume an operand
value; 92_eei_decisions.md D12, D19. -/
def Obligations.StxStoresRegister : Prop :=
  (∀ b m, opcodeTable b = some (m, .stx) ↔
    (b, m, m.length) ∈ [(0x86, .zp, 2), (0x96, .zpy, 2), (0x8E, .abs, 3)]) ∧
  ∀ i s, i.operation = .stx → s.mem.wf = true → ∃ ea m', effectiveAddress i s = some ea ∧
    operandReads i s = [] ∧ exec i s = .next { s with mem := m' } ∧ m'.wf = true ∧ m'.read ea.toNat = s.x ∧
    ∀ a : Addr, a ≠ ea → m'.read a.toNat = s.mem.read a.toNat

/-- STY in every mode stores Y at the effective address and changes nothing else. STY has exactly the opcode bytes,
modes and lengths of R155. In every one of its modes, from every state with canonical memory, it completes: the byte
at the address the resolver gives becomes Y, every other byte of memory reads as before, memory stays canonical, and
no register, flag or other element of the state changes. Also, the old byte there is not read: that is not in R155
but in R62, the spec's decision D19, and is said of the access record (log 13, DESIGN CHOICE). What R155 does not
name is unchanged by R16, decision D12 (log 15). The opcode byte values are the spec's own decision D3 (log 14).
Formalises: 41_load_store.md section 2, STY; 20_memory.md section 3, operations that do not consume an operand
value; 92_eei_decisions.md D12, D19. -/
def Obligations.StyStoresRegister : Prop :=
  (∀ b m, opcodeTable b = some (m, .sty) ↔
    (b, m, m.length) ∈ [(0x84, .zp, 2), (0x94, .zpx, 2), (0x8C, .abs, 3)]) ∧
  ∀ i s, i.operation = .sty → s.mem.wf = true → ∃ ea m', effectiveAddress i s = some ea ∧
    operandReads i s = [] ∧ exec i s = .next { s with mem := m' } ∧ m'.wf = true ∧ m'.read ea.toNat = s.y ∧
    ∀ a : Addr, a ≠ ea → m'.read a.toNat = s.mem.read a.toNat

/-- ADC in every mode: sum, carry, overflow, Z and N; nothing else changes. ADC has exactly the opcode bytes, modes and
lengths the spec gives it. In every mode, from every state, it completes: with sum = A + operand + C exact, A
becomes sum mod 256, C says sum > 255, V says that A and the operand share bit 7 and the result does not, Z and N
come from the new A, and every other bit of P (bit 3, so no decimal mode, among them) and element of the state is
unchanged. Rests on the spec's own decision D13 (V is cleared when the condition is false) and D3 (opcode byte
values); logs 14 and 15. Formalises: 42_add_compare.md section 2 Add with carry; 92_eei_decisions.md D13. -/
def Obligations.AdcAddsWithCarry : Prop :=
  (∀ b m, opcodeTable b = some (m, .adc) ↔
    (b, m, m.length) ∈ [(0x69, .imm, 2), (0x65, .zp, 2), (0x75, .zpx, 2), (0x6D, .abs, 3), (0x7D, .absx, 3),
      (0x79, .absy, 3), (0x61, .indx, 2), (0x71, .indy, 2)]) ∧
  ∀ i s, i.operation = .adc → ∃ v r p', operandValue i s = some v ∧ exec i s = .next { s with a := r, p := p' } ∧
    r.toNat = (s.a.toNat + v.toNat + (s.p.getLsbD 0).toNat) % 256 ∧
    ∀ k, k < 8 → p'.getLsbD k =
      if k = 7 then r.getLsbD 7
      else if k = 6 then (s.a.getLsbD 7 == v.getLsbD 7) && (r.getLsbD 7 != s.a.getLsbD 7)
      else if k = 1 then decide (r = 0)
      else if k = 0 then decide (s.a.toNat + v.toNat + (s.p.getLsbD 0).toNat > 255)
      else s.p.getLsbD k

/-- V after ADC says that the signed sum is outside -128 to 127. For every ADC instruction and state: the next state's V
(bit 6 of P) is set exactly when the sum of the signed readings of A and of the operand and the carry lies outside
-128..127, and its C (bit 0) exactly when the unsigned sum is at least 256. Formalises: 42_add_compare.md section 2,
the equivalent forms of the V condition. -/
def Obligations.AdcOverflowIsSignedRange : Prop :=
  ∀ i s, i.operation = .adc → ∃ v t, operandValue i s = some v ∧ exec i s = .next t ∧
    (t.p.getLsbD 6 = true ↔ s.a.toInt + v.toInt + ((s.p.getLsbD 0).toNat : Int) < -128 ∨
      127 < s.a.toInt + v.toInt + ((s.p.getLsbD 0).toNat : Int)) ∧
    (t.p.getLsbD 0 = true ↔ 256 ≤ s.a.toNat + v.toNat + (s.p.getLsbD 0).toNat)

/-- CMP in every mode writes C, Z and N from A against the operand and nothing else. CMP has exactly the opcode bytes,
modes and lengths of R173. In every one of its modes, from every state, it completes: C (bit 0 of P) says A >=
operand unsigned, Z (bit 1) and N (bit 7) come from the 8-bit wrapped difference, and every other bit of P and every
other element of the state is unchanged. The opcode byte values are the spec's own decision D3. Formalises: R173. -/
def Obligations.CmpComparesUnsigned : Prop :=
  (∀ b m, opcodeTable b = some (m, .cmp) ↔
    (b, m, m.length) ∈ [(0xC9, .imm, 2), (0xC5, .zp, 2), (0xD5, .zpx, 2), (0xCD, .abs, 3), (0xDD, .absx, 3),
      (0xD9, .absy, 3), (0xC1, .indx, 2), (0xD1, .indy, 2)]) ∧
  ∀ i s, i.operation = .cmp → ∃ v d p', operandValue i s = some v ∧ exec i s = .next { s with p := p' } ∧
    (d : Byte).toNat = (s.a.toNat + 256 - v.toNat) % 256 ∧
    ∀ k, k < 8 → p'.getLsbD k =
      if k = 7 then d.getLsbD 7 else if k = 1 then decide (d = 0)
      else if k = 0 then decide (s.a.toNat ≥ v.toNat) else s.p.getLsbD k

/-- CPX in every mode writes C, Z and N from X against the operand and nothing else. CPX has exactly the opcode bytes,
modes and lengths of R174. In every one of its modes, from every state, it completes: C (bit 0 of P) says X >=
operand unsigned, Z (bit 1) and N (bit 7) come from the 8-bit wrapped difference, and every other bit of P and every
other element of the state is unchanged. The opcode byte values are the spec's own decision D3. Formalises: R174. -/
def Obligations.CpxComparesUnsigned : Prop :=
  (∀ b m, opcodeTable b = some (m, .cpx) ↔
    (b, m, m.length) ∈ [(0xE0, .imm, 2), (0xE4, .zp, 2), (0xEC, .abs, 3)]) ∧
  ∀ i s, i.operation = .cpx → ∃ v d p', operandValue i s = some v ∧ exec i s = .next { s with p := p' } ∧
    (d : Byte).toNat = (s.x.toNat + 256 - v.toNat) % 256 ∧
    ∀ k, k < 8 → p'.getLsbD k =
      if k = 7 then d.getLsbD 7 else if k = 1 then decide (d = 0)
      else if k = 0 then decide (s.x.toNat ≥ v.toNat) else s.p.getLsbD k

/-- CPY in every mode writes C, Z and N from Y against the operand and nothing else. CPY has exactly the opcode bytes,
modes and lengths of R175. In every one of its modes, from every state, it completes: C (bit 0 of P) says Y >=
operand unsigned, Z (bit 1) and N (bit 7) come from the 8-bit wrapped difference, and every other bit of P and every
other element of the state is unchanged. The opcode byte values are the spec's own decision D3. Formalises: R175. -/
def Obligations.CpyComparesUnsigned : Prop :=
  (∀ b m, opcodeTable b = some (m, .cpy) ↔
    (b, m, m.length) ∈ [(0xC0, .imm, 2), (0xC4, .zp, 2), (0xCC, .abs, 3)]) ∧
  ∀ i s, i.operation = .cpy → ∃ v d p', operandValue i s = some v ∧ exec i s = .next { s with p := p' } ∧
    (d : Byte).toNat = (s.y.toNat + 256 - v.toNat) % 256 ∧
    ∀ k, k < 8 → p'.getLsbD k =
      if k = 7 then d.getLsbD 7 else if k = 1 then decide (d = 0)
      else if k = 0 then decide (s.y.toNat ≥ v.toNat) else s.p.getLsbD k

/-- INX: X becomes X + 1 modulo 256; only X, Z and N change. INX has the one opcode byte of R190, mode IMP, length 1.
From every state it completes: X becomes X + 1 modulo 256, Z and N come from the new X, C, V, the reserved bits and
every other element of the state are unchanged, and the step reads no byte but the opcode. Formalises: R190. -/
def Obligations.InxIncrementsX : Prop :=
  (∀ b m, opcodeTable b = some (m, .inx) ↔
    (b, m, m.length) ∈ [(0xE8, .imp, 1)]) ∧
  (∀ s, ∃ r p', exec .inx s = .next { s with x := r, p := p' } ∧ r.toNat = (s.x.toNat + 1) % 256 ∧
    ∀ k, k < 8 → p'.getLsbD k = if k = 7 then r.getLsbD 7 else if k = 1 then decide (r = 0) else s.p.getLsbD k) ∧
  ∀ s, s.run = .running → s.readByte s.pc = 0xE8 → stepReads s = [s.pc]

/-- DEX: X becomes X - 1 modulo 256; only X, Z and N change. DEX has the one opcode byte of R191, mode IMP, length 1.
From every state it completes: X becomes X - 1 modulo 256, Z and N come from the new X, and C, V, the reserved bits
and every other element of the state are unchanged. Also, the step reads no byte but the opcode: that is not in R191
but in R117, which the spec derives, and is said of the access record (log 13, DESIGN CHOICE). What R191 does not
name is unchanged by R16, decision D12 (log 15); the opcode byte value is the spec's own decision D3 (log 14).
Formalises: 43_register_ops.md, DEX; 40_sequencer_and_modes.md section 1, the table of memory accesses;
92_eei_decisions.md D3, D12. -/
def Obligations.DexDecrementsX : Prop :=
  (∀ b m, opcodeTable b = some (m, .dex) ↔
    (b, m, m.length) ∈ [(0xCA, .imp, 1)]) ∧
  (∀ s, ∃ r p', exec .dex s = .next { s with x := r, p := p' } ∧ r.toNat = (s.x.toNat + 255) % 256 ∧
    ∀ k, k < 8 → p'.getLsbD k = if k = 7 then r.getLsbD 7 else if k = 1 then decide (r = 0) else s.p.getLsbD k) ∧
  ∀ s, s.run = .running → s.readByte s.pc = 0xCA → stepReads s = [s.pc]

/-- TAX: X becomes A; only X, Z and N change. TAX has the one opcode byte of R192, mode IMP, length 1. From every state
it completes: X becomes A, Z and N come from the new X, C, V, the reserved bits and every other element of the state
are unchanged. Formalises: R192. -/
def Obligations.TaxTransfersAToX : Prop :=
  (∀ b m, opcodeTable b = some (m, .tax) ↔
    (b, m, m.length) ∈ [(0xAA, .imp, 1)]) ∧
  (∀ s, ∃ r p', exec .tax s = .next { s with x := r, p := p' } ∧ r = s.a ∧
    ∀ k, k < 8 → p'.getLsbD k = if k = 7 then r.getLsbD 7 else if k = 1 then decide (r = 0) else s.p.getLsbD k)

/-- BNE adds the signed displacement to the PC past the branch when Z is clear, else nothing. BNE has the one opcode
byte 0xD0, mode REL, length 2 (the byte value is the spec's own decision D3). From every state it completes: with Z
set the state past the instruction is unchanged; with Z clear PC becomes (PC + d) mod 65536 for the displacement
byte read as d in -128..127, and nothing else changes. As a step at address a0: PC ends at a0 + 2 when Z is set, and
at (a0 + 2 + d) mod 65536 when it is clear, and nothing else changes. Formalises: R200. -/
def Obligations.BneBranchesOnZeroClear : Prop :=
  (∀ b m, opcodeTable b = some (m, .bne) ↔
    (b, m, m.length) ∈ [(0xD0, .rel, 2)]) ∧
  (∀ d s, s.p.getLsbD 1 = true → exec (.bne d) s = .next s) ∧
  (∀ d s, s.p.getLsbD 1 = false → ∃ pc', exec (.bne d) s = .next { s with pc := pc' } ∧
    (pc'.toNat : Int) = ((s.pc.toNat : Int) + d.toInt) % 65536) ∧
  ∀ s, s.run = .running → s.readByte s.pc = 0xD0 → ∃ pc', step s = .next { s with pc := pc' } ∧
    (pc'.toNat : Int) =
      ((s.pc.toNat : Int) + 2 + if s.p.getLsbD 1 then 0 else (s.readByte (s.pc + 1)).toInt) % 65536

/-- JMP in both modes sets PC to the effective address and changes nothing else. JMP has exactly the opcode bytes 0x4C
(ABS) and 0x6C (IND), both of length 3 (the byte values are the spec's own decision D3). In both modes, from every
state, it completes: PC becomes the effective address the resolver gives, and no flag, register or memory byte
changes; its access record has no write and no read of the byte at the effective address. Formalises: R201. -/
def Obligations.JmpSetsPcToEffectiveAddress : Prop :=
  (∀ b m, opcodeTable b = some (m, .jmp) ↔
    (b, m, m.length) ∈ [(0x4C, .abs, 3), (0x6C, .ind, 3)]) ∧
  ∀ i s, i.operation = .jmp → (∃ ea, effectiveAddress i s = some ea ∧ exec i s = .next { s with pc := ea }) ∧
    operandReads i s = [] ∧ instrWrites i s = []

/-- BRK: PC past the byte 0x00, RUN Halted, nothing else. The byte 0x00 is BRK, mode IMP, length 1, and no other byte
is. Executing BRK sets RUN to Halted and changes nothing else; a step in Running on a byte 0x00 at PC gives PC + 1
mod 65536 and RUN Halted, everything else, memory and S included, unchanged. Rests on the spec's decision D4 (0x00
is a defined instruction that halts). Formalises: 44_control.md section on BRK; 92_eei_decisions.md D4. -/
def Obligations.BrkHalts : Prop :=
  (∀ b m, opcodeTable b = some (m, .brk) ↔
    (b, m, m.length) ∈ [(0x00, .imp, 1)]) ∧
  (∀ s, exec .brk s = .next { s with run := .halted }) ∧
  ∀ s, s.run = .running → s.readByte s.pc = 0x00 → step s = .next { s with pc := s.pc + 1, run := .halted }

/-- Immediate and relative: the operand is the byte after the opcode, and there is no effective address. For every state
whose opcode byte at PC has mode IMM or REL in the table: the fetch yields an instruction of the table's operation
in the state with PC past two bytes, with no effective address, whose operand value is the byte after the opcode,
and the step reads no byte but those two. Formalises: R119; R120. -/
def Obligations.ModesWithoutAddress : Prop :=
  ∀ s t m op, opcodeTable (s.readByte s.pc) = some (m, op) → m = .imm ∨ m = .rel → t = { s with pc := s.pc + 2 } →
    ∃ i, fetchInstr s = .instr i t ∧ i.operation = op ∧ effectiveAddress i t = none ∧
      operandValue i t = some (s.readByte (s.pc + 1)) ∧
      (s.run = .running → stepReads s = [s.pc, s.pc + 1])

/-- Implied: no operand, no effective address, PC past the opcode byte only. For every state whose opcode byte at PC has
mode IMP in the table: the fetch yields an instruction of the table's operation, one of INX, DEX, TAX and BRK, in
the state with PC past one byte, with no operand value and no effective address. Formalises: R118. -/
def Obligations.ImpliedModeConsumesNothing : Prop :=
  ∀ s t op, opcodeTable (s.readByte s.pc) = some (.imp, op) → t = { s with pc := s.pc + 1 } →
    (op = .inx ∨ op = .dex ∨ op = .tax ∨ op = .brk) ∧
    ∃ i, fetchInstr s = .instr i t ∧ i.operation = op ∧ effectiveAddress i t = none ∧ operandValue i t = none

/-- Zero-page, zero-page,X and zero-page,Y addresses, masked to page 0, and their operand. For every state whose opcode
byte at PC has mode ZP, ZPX or ZPY in the table: the fetch yields an instruction of the table's operation in the
state with PC past two bytes, whose effective address is the byte after the opcode, or that byte plus X or Y modulo
256, with high byte 0, and whose operand value is the byte of memory there when the operation wants a value and none
otherwise. Formalises: R121; R122; R123. -/
def Obligations.ZeroPageModes : Prop :=
  (∀ s t op, opcodeTable (s.readByte s.pc) = some (.zp, op) → t = { s with pc := s.pc + 2 } →
    ∃ i ea, fetchInstr s = .instr i t ∧ i.operation = op ∧ effectiveAddress i t = some ea ∧
      ea.toNat = (s.readByte (s.pc + 1)).toNat ∧
      operandValue i t = if Operation.wantsValue op then some (s.readByte ea) else none) ∧
  (∀ s t op, opcodeTable (s.readByte s.pc) = some (.zpx, op) → t = { s with pc := s.pc + 2 } →
    ∃ i ea, fetchInstr s = .instr i t ∧ i.operation = op ∧ effectiveAddress i t = some ea ∧
      ea.toNat = ((s.readByte (s.pc + 1)).toNat + s.x.toNat) % 256 ∧
      operandValue i t = if Operation.wantsValue op then some (s.readByte ea) else none) ∧
  (∀ s t op, opcodeTable (s.readByte s.pc) = some (.zpy, op) → t = { s with pc := s.pc + 2 } →
    ∃ i ea, fetchInstr s = .instr i t ∧ i.operation = op ∧ effectiveAddress i t = some ea ∧
      ea.toNat = ((s.readByte (s.pc + 1)).toNat + s.y.toNat) % 256 ∧
      operandValue i t = if Operation.wantsValue op then some (s.readByte ea) else none)

/-- Absolute: the little-endian address of the two bytes after the opcode, and its operand. For every state whose opcode
byte at PC has mode ABS in the table: the fetch yields an instruction of the table's operation in the state with PC
past three bytes, whose effective address is the second operand byte times 256 plus the first, and whose operand
value is the byte of memory there when the operation wants a value and none otherwise. Formalises: R124. -/
def Obligations.AbsoluteMode : Prop :=
  ∀ s t op, opcodeTable (s.readByte s.pc) = some (.abs, op) → t = { s with pc := s.pc + 3 } →
    ∃ i ea, fetchInstr s = .instr i t ∧ i.operation = op ∧ effectiveAddress i t = some ea ∧
      ea.toNat = (s.readByte (s.pc + 2)).toNat * 256 + (s.readByte (s.pc + 1)).toNat ∧
      operandValue i t = if Operation.wantsValue op then some (s.readByte ea) else none

/-- Absolute,X and absolute,Y: a 16-bit sum modulo 65536 with carry into the high byte. For every state whose opcode
byte at PC has mode ABSX or ABSY in the table: the fetch yields an instruction of the table's operation in the state
with PC past three bytes, whose effective address is (b2 * 256 + b1 + X or Y) modulo 65536, and whose operand value
is the byte there when the operation wants one and none otherwise. The wrap past 0xFFFF is the spec's decision D14
(log 15). Formalises: 40_sequencer_and_modes.md section 2 (absolute,X and absolute,Y); 92_eei_decisions.md D14. -/
def Obligations.AbsoluteIndexedModes : Prop :=
  (∀ s t op, opcodeTable (s.readByte s.pc) = some (.absx, op) → t = { s with pc := s.pc + 3 } →
    ∃ i ea, fetchInstr s = .instr i t ∧ i.operation = op ∧ effectiveAddress i t = some ea ∧
      ea.toNat = ((s.readByte (s.pc + 2)).toNat * 256 + (s.readByte (s.pc + 1)).toNat + s.x.toNat) % 65536 ∧
      operandValue i t = if Operation.wantsValue op then some (s.readByte ea) else none) ∧
  (∀ s t op, opcodeTable (s.readByte s.pc) = some (.absy, op) → t = { s with pc := s.pc + 3 } →
    ∃ i ea, fetchInstr s = .instr i t ∧ i.operation = op ∧ effectiveAddress i t = some ea ∧
      ea.toNat = ((s.readByte (s.pc + 2)).toNat * 256 + (s.readByte (s.pc + 1)).toNat + s.y.toNat) % 65536 ∧
      operandValue i t = if Operation.wantsValue op then some (s.readByte ea) else none)

/-- Indirect: the target is read at the pointer and at pointer + 1 modulo 65536; only JMP uses it. For every state whose
opcode byte at PC has mode IND in the table: the operation is JMP, and the fetch yields a JMP in the state with PC
past three bytes, with no operand value, whose effective address has its low byte at the pointer b2 * 256 + b1 and
its high byte at the next address modulo 65536, with a full carry. Rests on the spec's decision D14 (log 15).
Formalises: 40_sequencer_and_modes.md section 2 (indirect); 92_eei_decisions.md D14. -/
def Obligations.IndirectMode : Prop :=
  ∀ s t op, opcodeTable (s.readByte s.pc) = some (.ind, op) → t = { s with pc := s.pc + 3 } →
    op = .jmp ∧ ∃ i ea, fetchInstr s = .instr i t ∧ i.operation = .jmp ∧ operandValue i t = none ∧
      effectiveAddress i t = some ea ∧
      ea.toNat =
        (s.mem.read (((s.readByte (s.pc + 2)).toNat * 256 + (s.readByte (s.pc + 1)).toNat + 1) % 65536)).toNat * 256 +
          (s.mem.read ((s.readByte (s.pc + 2)).toNat * 256 + (s.readByte (s.pc + 1)).toNat)).toNat

/-- (zp,X): the pointer is (b1 + X) mod 256; its high byte at 0x00FF follows ZP_PTR_HI_WRAP. For every state whose
opcode byte at PC has mode INDX in the table: the fetch yields an instruction of the table's operation in the state
with PC past two bytes, whose effective address is read little-endian at the zero-page pointer (b1 + X) modulo 256
and the address after it, where the address after 0x00FF is 0x0000 or 0x0100 as the open parameter ZP_PTR_HI_WRAP
says (both values are covered: the parameter has no body, log 4), and whose operand value is the byte there when the
operation wants one and none otherwise. Formalises: 40_sequencer_and_modes.md section 2 (indexed-indirect (X));
92_eei_decisions.md D15. -/
def Obligations.IndexedIndirectMode : Prop :=
  ∀ s t op ptr, opcodeTable (s.readByte s.pc) = some (.indx, op) → t = { s with pc := s.pc + 2 } →
    ptr = ((s.readByte (s.pc + 1)).toNat + s.x.toNat) % 256 →
    ∃ i ea, fetchInstr s = .instr i t ∧ i.operation = op ∧ effectiveAddress i t = some ea ∧
      ea.toNat = (s.mem.read (if ptr = 255 then (if Config.zpPtrHiWrap then 0 else 256) else ptr + 1)).toNat * 256 +
        (s.mem.read ptr).toNat ∧
      operandValue i t = if Operation.wantsValue op then some (s.readByte ea) else none

/-- (zp),Y: the base is read at the pointer b1, Y is added after, modulo 65536. For every state whose opcode byte at PC
has mode INDY in the table: the fetch yields an instruction of the table's operation in the state with PC past two
bytes, whose effective address is the little-endian value read at the zero-page pointer b1 and the address after it
(0x0000 or 0x0100 after 0x00FF, as the open parameter ZP_PTR_HI_WRAP says, log 4) plus Y modulo 65536, and whose
operand value is the byte there when the operation wants one and none otherwise. The modulo is the spec's decision
D14 (log 15). Formalises: 40_sequencer_and_modes.md section 2 (indirect-indexed (Y)); 92_eei_decisions.md D14, D15. -/
def Obligations.IndirectIndexedMode : Prop :=
  ∀ s t op ptr, opcodeTable (s.readByte s.pc) = some (.indy, op) → t = { s with pc := s.pc + 2 } →
    ptr = (s.readByte (s.pc + 1)).toNat →
    ∃ i ea, fetchInstr s = .instr i t ∧ i.operation = op ∧ effectiveAddress i t = some ea ∧
      ea.toNat = ((s.mem.read (if ptr = 255 then (if Config.zpPtrHiWrap then 0 else 256) else ptr + 1)).toNat * 256 +
        (s.mem.read ptr).toNat + s.y.toNat) % 65536 ∧
      operandValue i t = if Operation.wantsValue op then some (s.readByte ea) else none

/-- zext_16 keeps the number; sext_16 adds 0xFF00 from 0x80 on, which is b - 256 modulo 65536. For every byte b:
zext_16(b) has the same number; sext_16(b) is b below 0x80 and 0xFF00 + b from 0x80 on, which is b read as two's
complement, modulo 65536. Formalises: R10. -/
def Obligations.ExtensionsZeroAndSign : Prop :=
  ∀ b : Byte, (zext16 b).toNat = b.toNat ∧ (b.toNat < 0x80 → (sext16 b).toNat = b.toNat) ∧
    (0x80 ≤ b.toNat → (sext16 b).toNat = 0xFF00 + b.toNat) ∧ ((sext16 b).toNat : Int) = b.toInt % 65536

/-- SetZN writes Z and N every time and keeps every other bit of P. For every byte v and every P: after SetZN(v), Z (bit
1) is set exactly when v is 0 and N (bit 7) is bit 7 of v, and bits 0 and 2 to 6 are as before. Formalises: R13. -/
def Obligations.SetZNWritesZeroAndNegative : Prop :=
  ∀ v p : Byte, ((setZN v p).getLsbD 1 = true ↔ v = 0) ∧ (setZN v p).getLsbD 7 = v.getLsbD 7 ∧
    ∀ k, k < 7 → k ≠ 1 → (setZN v p).getLsbD k = p.getLsbD k

/-- After any writes from reset a read returns the last byte written there, or 0x00. For every list of writes made in
order from reset memory (by stores or by the host, which use the same operation) and every address: the byte read is
that of the last write to the address, or 0x00 if there is none; the memory stays canonical. For every canonical
memory, one write changes that one byte and nothing else. Reading is a function of memory and changes nothing.
Formalises: R56. -/
def Obligations.MemoryReadsLastWrite : Prop :=
  (∀ (ws : List (Addr × Byte)) (a : Addr), (Memory.writeAll [] ws).wf = true ∧
    (Memory.writeAll [] ws).read a.toNat = ((ws.reverse.find? (fun w => w.1 == a)).map Prod.snd).getD 0) ∧
  ∀ (m : Memory) (a b : Addr) (v : Byte), m.wf = true →
    (m.write a.toNat v).read b.toNat = if b = a then v else m.read b.toNat

/-- A load from the address a store wrote gives the byte stored, whatever the modes. For every store instruction and
every value instruction (load, ADC or compare) in whatever modes and every state with canonical memory: after the
store, if the second instruction's effective address is the one stored to, its operand value is the register stored.
Formalises: 41_load_store.md section 2, the round-trip law; 95_test_vectors.md E6. -/
def Obligations.StoreThenLoadRoundTrips : Prop :=
  ∀ i j s t a v, storedByte i.operation s = some v → s.mem.wf = true → effectiveAddress i s = some a →
    exec i s = .next t → effectiveAddress j t = some a → Operation.wantsValue j.operation = true →
    operandValue j t = some v

/-- Decoding the bytes of any instruction, whatever follows them, gives the instruction back. For every instruction
(each of the sixty, every operand value) and every list of further bytes: the instruction is well formed, and
decoding its encoding followed by those bytes gives that instruction and leaves exactly those bytes. Formalises:
30_encoding.md sections 1 and 3. -/
def Obligations.DecodeOfEncodeIsIdentity : Prop :=
  ∀ i rest, i.wellFormed = true ∧ decode (encode i ++ rest) = .ok i rest

/-- Bytes that decode are the encoding of what they decode to, followed by the rest. For every list of bytes: if it
decodes to an instruction and a rest, then it is the encoding of that instruction followed by that rest, so each
instruction has one encoding. Formalises: 30_encoding.md sections 1 and 3. -/
def Obligations.EncodeOfDecodeIsIdentity : Prop :=
  ∀ bs i rest, decode bs = .ok i rest → bs = encode i ++ rest

/-- An instruction is an opcode byte and 0, 1 or 2 operand bytes; its length follows from the opcode byte alone. If
bytes decode to an instruction and a rest: the first byte is its opcode byte, the table gives that byte the
instruction's mode and operation, the instruction takes 1, 2 or 3 bytes off the list, and that number is a function
of the opcode byte alone: any two decodings that start with the same byte take equally many. The bytes of a fetched
instruction lie at PC, PC + 1 and PC + 2, and no register takes part in decoding. Formalises: R80. -/
def Obligations.LengthFollowsFromOpcodeByte : Prop :=
  (∀ bs i rest, decode bs = .ok i rest → ∃ b tail, bs = b :: tail ∧ b = i.opcode ∧
    opcodeTable b = some (i.mode, i.operation) ∧ bs.length = rest.length + i.length ∧
    (i.length = 1 ∨ i.length = 2 ∨ i.length = 3)) ∧
  (∀ b tail tail' i i' rest rest', decode (b :: tail) = .ok i rest → decode (b :: tail') = .ok i' rest' →
    i.length = i'.length) ∧
  ∀ s i t, fetchInstr s = .instr i t → ∃ rest,
    decode [s.readByte s.pc, s.readByte (s.pc + 1), s.readByte (s.pc + 2)] = .ok i rest

/-- The table has sixty entries: the counts by mode and by length; no byte is claimed twice. The catalog is well formed
(no byte claimed twice, every mode supported by its operation) and the table defines exactly sixty of the 256 bytes,
with 7 IMM, 10 ZP, 6 ZPX, 2 ZPY, 11 ABS, 5 ABSX, 5 ABSY, 1 IND, 4 INDX, 4 INDY, 4 IMP and 1 REL, and 4 of one byte,
34 of two and 22 of three. The byte values are the spec's decision D3 (log 14). Formalises: 30_encoding.md section
3, the catalog and its counts; 95_test_vectors.md Q6. -/
def Obligations.OpcodeTableHasSixtyEntries : Prop :=
  catalogWellFormed catalog = true ∧
  ((List.range 256).filter (fun n => (opcodeTable (BitVec.ofNat 8 n)).isSome)).length = 60 ∧
  [Mode.imm, .zp, .zpx, .zpy, .abs, .absx, .absy, .ind, .indx, .indy, .imp, .rel].map
      (fun m => (catalog.filter (fun e => e.mode = m)).length) = [7, 10, 6, 2, 11, 5, 5, 1, 4, 4, 4, 1] ∧
  [1, 2, 3].map (fun l => (catalog.filter (fun e => e.mode.length = l)).length) = [4, 34, 22]

/-- 0x00 is BRK, and the 196 undefined opcode bytes are exactly the ranges the spec lists. The byte 0x00 is defined, as
BRK with mode IMP; and a byte has no table entry exactly when its number lies in one of the ranges the spec lists
(0x01-0x4B, 0x4D-0x60, ..., 0xED-0xFF), 0xEA (no NOP) among them. The byte values are the spec's decisions D3 and D4
(logs 14 and 15). Formalises: 30_encoding.md section 3, the undefined opcodes; 43_register_ops.md. -/
def Obligations.UndefinedBytesAreTheListedRanges : Prop :=
  opcodeTable 0x00 = some (.imp, .brk) ∧
  ∀ b : Byte, opcodeTable b = none ↔ ∃ r ∈ [
    (0x01, 0x4B), (0x4D, 0x60), (0x62, 0x64), (0x66, 0x68), (0x6A, 0x6B), (0x6E, 0x70), (0x72, 0x74),
    (0x76, 0x78), (0x7A, 0x7C), (0x7E, 0x80), (0x82, 0x83), (0x87, 0x8B), (0x8F, 0x90), (0x92, 0x93),
    (0x97, 0x98), (0x9A, 0x9C), (0x9E, 0x9F), (0xA3, 0xA3), (0xA7, 0xA8), (0xAB, 0xAB), (0xAF, 0xB0),
    (0xB2, 0xB3), (0xB7, 0xB8), (0xBA, 0xBB), (0xBF, 0xBF), (0xC2, 0xC3), (0xC6, 0xC8), (0xCB, 0xCB),
    (0xCE, 0xCF), (0xD2, 0xD4), (0xD6, 0xD8), (0xDA, 0xDC), (0xDE, 0xDF), (0xE1, 0xE3), (0xE5, 0xE7),
    (0xE9, 0xEB), (0xED, 0xFF)],
    r.1 ≤ b.toNat ∧ b.toNat ≤ r.2

/-- Sample instruction bytes decode to the instructions they stand for. Bytes written out from the opcode map, one
instruction of each family, decode to the instruction they stand for: LDA #$80, LDX $FF,Y, LDY $0400,X, STA ($20),Y,
STX $10, STY $1234, ADC ($10,X), CMP $0200,Y, CPX #$05, CPY $10, INX, DEX, TAX, BNE, JMP ($0200) and BRK.
Formalises: 30_encoding.md sections 3 and 4; 95_test_vectors.md section 3. -/
def Obligations.SampleWordsDecode : Prop :=
  decode [0xA9, 0x80] = .ok (.ldaImm 0x80) [] ∧ decode [0xB6, 0xFF] = .ok (.ldxZpy 0xFF) [] ∧
  decode [0xBC, 0x00, 0x04] = .ok (.ldyAbsx 0x0400) [] ∧ decode [0x91, 0x20] = .ok (.staIndy 0x20) [] ∧
  decode [0x86, 0x10] = .ok (.stxZp 0x10) [] ∧ decode [0x8C, 0x34, 0x12] = .ok (.styAbs 0x1234) [] ∧
  decode [0x61, 0x10] = .ok (.adcIndx 0x10) [] ∧ decode [0xD9, 0x00, 0x02] = .ok (.cmpAbsy 0x0200) [] ∧
  decode [0xE0, 0x05] = .ok (.cpxImm 0x05) [] ∧ decode [0xC4, 0x10] = .ok (.cpyZp 0x10) [] ∧
  decode [0xE8] = .ok .inx [] ∧ decode [0xCA] = .ok .dex [] ∧ decode [0xAA] = .ok .tax [] ∧
  decode [0xD0, 0xFB] = .ok (.bne 0xFB) [] ∧ decode [0x6C, 0x00, 0x02] = .ok (.jmpInd 0x0200) [] ∧
  decode [0x00] = .ok .brk []

/-- A step executes the instruction the bytes at PC decode to, past its bytes. In Running, if the bytes at PC, PC + 1
and PC + 2 decode to an instruction, the step is exec of that instruction in the same state with PC moved past the
instruction's bytes (modulo 65536), and nothing else is done around it. Formalises: 40_sequencer_and_modes.md
section 1; 90_conflicts.md C2. -/
def Obligations.StepRunsDecodedInstruction : Prop :=
  ∀ s i rest, s.run = .running → decode (bytesAtPc s) = .ok i rest →
    step s = exec i { s with pc := s.pc + BitVec.ofNat 16 i.length }

/-- The word that withFetchWord places is the instruction the next step executes. For every state with canonical memory
and every opcode-table word that decodes: after withFetchWord the next step is exec of that instruction in the
resulting state with PC past it; the registers are as before, RUN is Running, and every byte outside PC, PC + 1 and
PC + 2 is as before. About the model's interface (log 7). Formalises: 20_memory.md section 3, the host memory port;
70_reset_and_hazards.md section 2. -/
def Obligations.PlacedWordIsNextInstruction : Prop :=
  ∀ (s : State) (nbits w : Nat) (i : Instr), s.mem.wf = true → decodeTableWord nbits w = some i →
    step (s.withFetchWord nbits w) =
      exec i { s.withFetchWord nbits w with pc := s.pc + BitVec.ofNat 16 i.length } ∧
    (∃ m, s.withFetchWord nbits w = { s with run := .running, mem := m } ∧ m.wf = true ∧
      ∀ a : Addr, a ≠ s.pc → a ≠ s.pc + 1 → a ≠ s.pc + 2 → m.read a.toNat = s.mem.read a.toNat)

/-- A step in Running faults exactly when the byte at PC is not 0x00 and has no table entry. From every Running state
the step completes, and its next state is Faulted exactly when the byte at PC is not 0x00 and has no table entry;
then the kind is UndefinedOpcode (1), and the byte and its address are recorded. No instruction, once decoded, ends
Faulted from a state that is not. Formalises: R221. -/
def Obligations.UndefinedOpcodeFaultsOnFetch : Prop :=
  (∀ s, s.run = .running → ∃ t, step s = .next t ∧
    (t.run = .faulted ↔ s.readByte s.pc ≠ 0x00 ∧ opcodeTable (s.readByte s.pc) = none) ∧
    (t.run = .faulted → t.faultKind = .undefinedOpcode ∧ t.faultOpcode = s.readByte s.pc ∧ t.faultAddr = s.pc)) ∧
  ∀ i s, s.run ≠ .faulted → ∃ t, exec i s = .next t ∧ t.run ≠ .faulted

/-- Entering the UndefinedOpcode fault changes PC, RUN and the latches and nothing else. From a Running state whose byte
at PC has no table entry the step gives exactly: kind 1, the byte, its address, RUN Faulted, PC one past the byte
modulo 65536; A, X, Y, S, P and memory are as before. The Faulted state, the latches and the value of PC are the
spec's decisions D9 and D22 (log 15). Formalises: 60_exceptions.md section 1, fault entry; 92_eei_decisions.md D9,
D22. -/
def Obligations.FaultEntryIsPrecise : Prop :=
  ∀ s, s.run = .running → opcodeTable (s.readByte s.pc) = none → step s = .next
    { s with pc := s.pc + 1, run := .faulted, faultKind := .undefinedOpcode, faultOpcode := s.readByte s.pc,
             faultAddr := s.pc }

/-- No step raises ResolverModeMismatch: every table entry has a rule. Every pair the table gives puts together an
instruction whatever its operand bytes, so no fetch yields a fault of kind ResolverModeMismatch, and a step leaves
FAULT_KIND at that value only if it was there. Formalises: 60_exceptions.md section 1, ResolverModeMismatch;
92_eei_decisions.md D23. -/
def Obligations.ModeMismatchIsUnreachable : Prop :=
  (∀ b m op, opcodeTable b = some (m, op) → ∀ b1 b2, (Instr.ofParts op (Operand.ofBytes m b1 b2)).isSome = true) ∧
  (∀ s op a0 t, fetchInstr s ≠ .fault .resolverModeMismatch op a0 t) ∧
  ∀ s t, step s = .next t → t.faultKind = .resolverModeMismatch → s.faultKind = .resolverModeMismatch

/-- A step in Halted or Faulted changes no state and fetches nothing. If RUN is Halted or Faulted the step gives the
same state, and its access record (log 13) has no read and no write. The spec's decision D10 (log 6). Formalises:
40_sequencer_and_modes.md section 1, a Step in Halted or Faulted; 92_eei_decisions.md D10. -/
def Obligations.StoppedStepChangesNothing : Prop :=
  ∀ s, s.run = .halted ∨ s.run = .faulted → step s = .next s ∧ stepReads s = [] ∧ stepWrites s = []

/-- From every state a step, and every instruction, answers a next state. Nothing stops the model outside the state:
step answers a next state from every state whatever, and exec does for every instruction and state. That step never
answers a fault or a refusal is the model's choice (log 5, DEDUCED: the spec describes the entry of its faults, so a
fault is a next state with RUN = Faulted, and the type Fault has no constructor). A next state may therefore be
Faulted; UndefinedOpcodeFaultsOnFetch (O38) says when it is, and that no instruction ends Faulted. Formalises:
40_sequencer_and_modes.md section 3; 60_exceptions.md section 1, fault entry; 93_implementation_defined.md part 1,
last paragraph. -/
def Obligations.EveryStepAnswersNext : Prop :=
  (∀ s, ∃ t, step s = .next t) ∧ ∀ i s, ∃ t, exec i s = .next t

/-- The outcome of a step, tested in the order stopped, halt, undefined, executed. For every step the reported outcome
is: the standing outcome if RUN is not Running; else Halted if the byte at PC is 0x00; else Fault(UndefinedOpcode,
the byte, its address) if the byte has no table entry; else Executed. Formalises: 60_exceptions.md section 1,
priority; 40_sequencer_and_modes.md section 3, the outcome of a Step. -/
def Obligations.StepOutcomeByPriority : Prop :=
  ∀ s t, step s = .next t → t.outcome =
    if s.run ≠ .running then s.outcome
    else if s.readByte s.pc = 0x00 then .halted
    else if opcodeTable (s.readByte s.pc) = none then .fault .undefinedOpcode (s.readByte s.pc) s.pc
    else .executed

/-- An instruction that is no control transfer ends with PC at the next sequential address. In Running, if the table
gives the byte at PC a mode and an operation other than BNE, JMP and BRK, the step completes in Running with PC
moved on by the mode's length modulo 65536. Formalises: 40_sequencer_and_modes.md section 1, the contract of the
resolver; 95_test_vectors.md Q7. -/
def Obligations.SequentialInstructionsAdvancePc : Prop :=
  ∀ s m op, s.run = .running → opcodeTable (s.readByte s.pc) = some (m, op) → op ≠ .bne → op ≠ .jmp → op ≠ .brk →
    ∃ t, step s = .next t ∧ t.run = .running ∧ t.pc = s.pc + BitVec.ofNat 16 m.length

/-- No step reads or writes S. Two states that differ in S alone step to states that differ in S alone, each with its
own S: no instruction, fetch or fault reads or writes S. Formalises: 10_state.md section 2, the stack pointer;
92_eei_decisions.md D27. -/
def Obligations.StackPointerIsInert : Prop :=
  ∀ s v, ∃ t, step s = .next t ∧ t.sp = s.sp ∧ step { s with sp := v } = .next { t with sp := v }

/-- Only C and Z of P are ever read; bits 5 to 2 are never written. Two states that differ only in the bits of P other
than C and Z step to states that differ only in P: each bit of the second P is either the same as in the first, or
kept in both; and bits 5, 4, 3 and 2 are always kept. So bit 3 selects no decimal mode, bit 2 masks nothing, and no
instruction reads N or V. Formalises: 10_state.md section 3; 92_eei_decisions.md D28. -/
def Obligations.UnreadStatusBitsAreInert : Prop :=
  ∀ s p', p'.getLsbD 0 = s.p.getLsbD 0 → p'.getLsbD 1 = s.p.getLsbD 1 →
    ∃ t q, step s = .next t ∧ step { s with p := p' } = .next { t with p := q } ∧
      (∀ k, k < 8 → q.getLsbD k = t.p.getLsbD k ∨ (q.getLsbD k = p'.getLsbD k ∧ t.p.getLsbD k = s.p.getLsbD k)) ∧
      ∀ k, 2 ≤ k → k ≤ 5 → q.getLsbD k = p'.getLsbD k ∧ t.p.getLsbD k = s.p.getLsbD k

/-- C is written by ADC and compares only, V by ADC only, Z and N by the ten flag operations only. For every instruction
and state the instruction completes, and: C is unchanged unless it is ADC, CMP, CPX or CPY; V is unchanged unless it
is ADC; all of P is unchanged if it is a store, BNE, JMP or BRK; bits 5 to 2 are unchanged. Formalises: 10_state.md
section 3, the flag table and its index of writers. -/
def Obligations.FlagsChangeOnlyByTheirOperations : Prop :=
  ∀ i s, ∃ t, exec i s = .next t ∧
    (i.operation ∉ [Operation.adc, .cmp, .cpx, .cpy] → t.p.getLsbD 0 = s.p.getLsbD 0) ∧
    (i.operation ≠ .adc → t.p.getLsbD 6 = s.p.getLsbD 6) ∧
    (i.operation ∈ [Operation.sta, .stx, .sty, .bne, .jmp, .brk] → t.p = s.p) ∧
    ∀ k, 2 ≤ k → k ≤ 5 → t.p.getLsbD k = s.p.getLsbD k

/-- Which operations write A, X, Y, PC, RUN; none writes S or the fault latches. For every instruction and state the
instruction completes, and: A is unchanged unless it is LDA or ADC; X unless it is LDX, INX, DEX or TAX; Y unless it
is LDY; PC (past the instruction) unless it is BNE or JMP; RUN unless it is BRK; S and the fault latches always.
Formalises: 10_state.md sections 2, 4 and 5. -/
def Obligations.RegistersChangeOnlyByTheirOperations : Prop :=
  ∀ i s, ∃ t, exec i s = .next t ∧
    (i.operation ∉ [Operation.lda, .adc] → t.a = s.a) ∧
    (i.operation ∉ [Operation.ldx, .inx, .dex, .tax] → t.x = s.x) ∧
    (i.operation ≠ .ldy → t.y = s.y) ∧
    (i.operation ∉ [Operation.bne, .jmp] → t.pc = s.pc) ∧
    (i.operation ≠ .brk → t.run = s.run) ∧
    t.sp = s.sp ∧ t.faultKind = s.faultKind ∧ t.faultOpcode = s.faultOpcode ∧ t.faultAddr = s.faultAddr

/-- A step changes memory by its record of at most one one-byte write, made only by a store. For every step: the memory
after it is the memory before it with the writes of its access record made, the record has at most one write, and it
has one only if RUN is Running and the byte at PC is an STA, STX or STY in the table; so every address outside it
reads as before. The access record is computed beside the meanings (log 13). Formalises: 20_memory.md sections 2 and
3. -/
def Obligations.StepMemoryIsItsWrites : Prop :=
  ∀ s t, step s = .next t → t.mem = s.mem.writeAll (stepWrites s) ∧ (stepWrites s).length ≤ 1 ∧
    (stepWrites s ≠ [] → s.run = .running ∧ ∃ m op, opcodeTable (s.readByte s.pc) = some (m, op) ∧
      (op = .sta ∨ op = .stx ∨ op = .sty)) ∧
    ∀ a : Addr, a ∉ (stepWrites s).map Prod.fst → t.mem.read a.toNat = s.mem.read a.toNat

/-- Which bytes a step reads, and how many, by mode and by whether the operation wants a value. In Running: a step on a
byte with no table entry reads that byte alone. Otherwise the read record is that of the fetched instruction i in
the state t past it: as many bytes as the mode's length, in ascending order from PC; then its pointer reads, two in
the modes IND, INDX and INDY and none in the others; then its operand read, one when the operation wants a value and
the mode is neither immediate nor relative, none otherwise. Where there are pointer reads, the effective address is
the little-endian value of the first and the second of them, plus Y modulo 65536 in the mode INDY; an operand read
is at the effective address. The access record is computed beside the meanings (log 13); that a store or jump reads
no operand byte is the spec's decision D19, the order its decision D32. Formalises: 40_sequencer_and_modes.md
section 1, the table of memory accesses; 20_memory.md section 3; 95_test_vectors.md section 3; 92_eei_decisions.md
D19, D32. -/
def Obligations.ReadCountsByMode : Prop :=
  ∀ s, s.run = .running →
    (opcodeTable (s.readByte s.pc) = none → stepReads s = [s.pc]) ∧
    ∀ m op, opcodeTable (s.readByte s.pc) = some (m, op) → ∃ i t ptrs vals,
      fetchInstr s = .instr i t ∧ i.mode = m ∧ i.operation = op ∧
      ptrs = Operand.pointerReads i.operand t ∧ vals = operandReads i t ∧
      stepReads s = (List.range m.length).map (fun n => s.pc + BitVec.ofNat 16 n) ++ ptrs ++ vals ∧
      ptrs.length = (if m = .ind ∨ m = .indx ∨ m = .indy then 2 else 0) ∧
      vals.length = (if Operation.wantsValue op = true ∧ m ≠ .imm ∧ m ≠ .rel then 1 else 0) ∧
      (∀ lo hi, ptrs = [lo, hi] → effectiveAddress i t =
        some (word16 (t.readByte lo) (t.readByte hi) + if m = .indy then zext16 t.y else 0)) ∧
      ∀ a ∈ vals, effectiveAddress i t = some a

/-- A step depends on memory through its recorded reads alone. For every state and every other memory that agrees with
the state's memory at each address of the step's read record: the step from the state with that memory ends in the
same registers, PC, RUN and latches, and in that memory with the same writes made; its access record is the same. So
the record of reads is complete, and no other byte can influence the step. The access record is computed beside the
meanings (log 13, with the spec's decisions D19 and D32). Formalises: 20_memory.md section 3;
40_sequencer_and_modes.md section 3; 92_eei_decisions.md D19, D32. -/
def Obligations.StepDependsOnlyOnItsReads : Prop :=
  ∀ (s : State) (m : Memory), (∀ a ∈ stepReads s, m.read a.toNat = s.mem.read a.toNat) →
    ∃ t, step s = .next t ∧ step { s with mem := m } = .next { t with mem := m.writeAll (stepWrites s) } ∧
      stepReads { s with mem := m } = stepReads s ∧ stepWrites { s with mem := m } = stepWrites s

/-- Reset, from any state: every element of the state at its reset value, for every RESET_PC and RESET_P. For all values
of the open parameters RESET_PC and RESET_P and from every state, Reset gives A = X = Y = 0x00 (the spec's decision
D8, log 3), S = 0xFF, P = RESET_P, PC = RESET_PC, RUN = Running, the latches 0, 0x00 and 0x0000, and every byte of
memory 0x00 in canonical form. The reset state of the host's machine is that for the parameter values Config names
(the model's choice, logs 1 and 2), and the statement holds for all others alike. Formalises:
70_reset_and_hazards.md section 1; 10_state.md section 8; 92_eei_decisions.md D6, D7, D8, D18. -/
def Obligations.ResetGivesTheResetState : Prop :=
  ∀ pc p s, ∃ t, State.hostReset pc p s = t ∧ t.a = 0x00 ∧ t.x = 0x00 ∧ t.y = 0x00 ∧ t.sp = 0xFF ∧ t.p = p ∧ t.pc = pc ∧
    t.run = .running ∧ t.faultKind = .none ∧ t.faultOpcode = 0x00 ∧ t.faultAddr = 0x0000 ∧ t.mem.wf = true ∧
    (∀ a : Addr, t.readByte a = 0x00) ∧ ∃ pc0 p0, State.reset = State.hostReset pc0 p0 s

/-- A machine stepped straight after reset halts with PC one on. For all values of RESET_PC and RESET_P, the step from
the reset state gives the reset state with PC one on modulo 65536 and RUN Halted. Formalises:
70_reset_and_hazards.md section 2. -/
def Obligations.FreshMachineHaltsAtOnce : Prop :=
  ∀ pc p, step (State.resetWith pc p) = .next { State.resetWith pc p with pc := pc + 1, run := .halted }

/-- The reset state meets the invariant, for every RESET_PC and RESET_P. For all values of the open parameters the reset
state has canonical memory and fault latches that agree with RUN; so has the host machine's reset state. Formalises:
70_reset_and_hazards.md section 1; 10_state.md section 5. -/
def Obligations.ResetStateMeetsInvariant : Prop :=
  (∀ pc p, (State.resetWith pc p).Inv) ∧ State.reset.Inv

/-- Every step keeps the invariant: canonical memory, and fault latches that agree with RUN. From every state that meets
the invariant, whether or not a run reaches it, the next state of a step meets it: memory is canonical, the latches
are at their reset values unless RUN is Faulted, and in Faulted the kind is UndefinedOpcode and the latched byte has
no table entry. Formalises: 10_state.md section 5; 60_exceptions.md section 1; 20_memory.md section 1. -/
def Obligations.StepKeepsInvariant : Prop :=
  ∀ s t : State, s.Inv → step s = .next t → t.Inv

/-- Every sequence of host requests, steps among them, keeps the invariant. For all values of the open parameters, from
every state that meets the invariant, after every list of requests (reset, step, memory writes, register writes, in
any order) the state meets the invariant; so every state the host can reach from reset does. Formalises:
20_memory.md section 3; 70_reset_and_hazards.md section 5; 40_sequencer_and_modes.md section 3. -/
def Obligations.HostRequestsKeepInvariant : Prop :=
  ∀ pc p (s : State) rs, s.Inv → (s.serveAll pc p rs).Inv ∧ ((State.resetWith pc p).serveAll pc p rs).Inv

/-- Halted and Faulted are left by Reset alone, and the latches are kept until then. In Halted or Faulted, after every
list of requests without a reset, RUN and the three fault latches are as before; a reset gives Running. Formalises:
60_exceptions.md section 1, no trap return; 92_eei_decisions.md D26. -/
def Obligations.OnlyResetLeavesTerminalStates : Prop :=
  ∀ pc p (s : State) rs, s.run ≠ .running →
    (HostRequest.reset ∉ rs → (s.serveAll pc p rs).run = s.run ∧ (s.serveAll pc p rs).faultKind = s.faultKind ∧
      (s.serveAll pc p rs).faultOpcode = s.faultOpcode ∧ (s.serveAll pc p rs).faultAddr = s.faultAddr) ∧
    (s.serve pc p .reset).run = .running

/-- A host memory write sets one byte in any RUN state; a host read gives it back. In every state with canonical memory,
whatever RUN is: a host write of v to a gives a state whose byte at a reads v, whose other bytes read as before,
with memory canonical and everything else unchanged. A host read is a function of the state and gives one byte.
Formalises: R63. -/
def Obligations.HostMemoryPortWritesOneByte : Prop :=
  ∀ pc p (s : State) a v, s.mem.wf = true → ∃ m, s.serve pc p (.memWrite a v) = { s with mem := m } ∧ m.wf = true ∧
    (s.serve pc p (.memWrite a v)).readByte a = v ∧
    ∀ b, b ≠ a → (s.serve pc p (.memWrite a v)).readByte b = s.readByte b

/-- A host register write reads back and touches no other register, RUN, latch or memory byte. For every state and each
of the six writable registers: after a register write the register reads as written, every other register name (RUN
and the latches among them) reads as before, and memory is unchanged. The port is the spec's decision D16.
Formalises: 20_memory.md section 3, the host register port; 92_eei_decisions.md D16. -/
def Obligations.HostRegisterPortReadsBack : Prop :=
  ∀ (s : State) (n : RegName) (v : Byte) (w : Addr),
    ((s.regWrite (.a v)).regRead n = if n = .a then .byte v else s.regRead n) ∧
    ((s.regWrite (.x v)).regRead n = if n = .x then .byte v else s.regRead n) ∧
    ((s.regWrite (.y v)).regRead n = if n = .y then .byte v else s.regRead n) ∧
    ((s.regWrite (.s v)).regRead n = if n = .s then .byte v else s.regRead n) ∧
    ((s.regWrite (.p v)).regRead n = if n = .p then .byte v else s.regRead n) ∧
    ((s.regWrite (.pc w)).regRead n = if n = .pc then .addr w else s.regRead n) ∧
    ∀ r, (s.regWrite r).mem = s.mem

/-- Run returns at most one state, a terminal one, and the bounded run finds exactly it. If Run returns from a state in
t, then RUN of t is Halted or Faulted, more steps change nothing, and no other state is returned; and the bounded
run answers t for some bound exactly when Run returns in t. (If no terminal state is reached, neither answers.)
Formalises: 40_sequencer_and_modes.md section 1, Run; 92_eei_decisions.md D11. -/
def Obligations.RunReturnsOneTerminalState : Prop :=
  ∀ s t : State, (s.RunReturns t → (t.run = .halted ∨ t.run = .faulted) ∧ (∀ n, t.stepMany n = t) ∧
      ∀ t', s.RunReturns t' → t' = t) ∧
    (s.RunReturns t ↔ ∃ n, s.runWithin n = some t)
end

