-- ==== Sys2Proof/Laws/Operands.lean ====
section
/-! SUPPORT. What each addressing mode computes, as numbers. -/

namespace Sys2Proof

@[simp] theorem word16_toNat (lo hi : Byte) : (word16 lo hi).toNat = hi.toNat * 256 + lo.toNat := by
  have h : lo.toNat < 2 ^ 8 := lo.isLt
  rw [word16, BitVec.toNat_append, ← Nat.shiftLeft_add_eq_or_of_lt h, Nat.shiftLeft_eq]

theorem lowByte_word16 (lo hi : Byte) : lowByte (word16 lo hi) = lo := by
  apply BitVec.eq_of_toNat_eq
  have := lo.isLt
  simp [lowByte]
  omega

theorem highByte_word16 (lo hi : Byte) : highByte (word16 lo hi) = hi := by
  apply BitVec.eq_of_toNat_eq
  have := lo.isLt
  have := hi.isLt
  simp [highByte, Nat.shiftRight_eq_div_pow]
  omega

theorem word16_low_high (w : Addr) : word16 (lowByte w) (highByte w) = w := by
  apply BitVec.eq_of_toNat_eq
  have := w.isLt
  simp [lowByte, highByte, Nat.shiftRight_eq_div_pow]
  omega

end Sys2Proof

namespace Sys2Proof.Machine

@[simp] theorem zext16_toNat (b : Byte) : (zext16 b).toNat = b.toNat := by
  have := b.isLt
  simp [zext16]
  omega

/-- The sign extension adds b where bit 7 is clear and b - 256 where it is set, modulo 65536. -/
theorem sext16_toNat (b : Byte) : (sext16 b).toNat = if b.toNat < 0x80 then b.toNat else 0xFF00 + b.toNat := by
  have := b.isLt
  unfold sext16
  split
  · simp
  · simp
    omega

theorem eaZpx_toNat (b : Byte) (s : State) : (eaZpx b s).toNat = (b.toNat + s.x.toNat) % 256 := by
  simp [eaZpx]

theorem eaZpy_toNat (b : Byte) (s : State) : (eaZpy b s).toNat = (b.toNat + s.y.toNat) % 256 := by
  simp [eaZpy]

/-- `zpNextFor` is `ZpNext` as R128 writes it. -/
theorem zpNextFor_eq (wrap : Bool) (b : Byte) :
    zpNextFor wrap b = if wrap then zext16 (b + 1) else zext16 b + 1 := by
  unfold zpNextFor
  by_cases hb : b = 0xFF
  · subst hb; cases wrap <;> decide
  · have hlt : b.toNat < 255 := by
      have := b.isLt
      have : b.toNat ≠ 255 := fun h => hb (BitVec.eq_of_toNat_eq h)
      omega
    rw [if_neg hb]
    cases wrap
    · rfl
    · apply BitVec.eq_of_toNat_eq
      simp [BitVec.toNat_add]
      omega

/-- The address after a zero-page pointer, as a number. -/
theorem zpNext_toNat (b : Byte) :
    (zpNext b).toNat = if b.toNat = 255 then (if Config.zpPtrHiWrap then 0 else 256) else b.toNat + 1 := by
  unfold zpNext zpNextFor
  by_cases hb : b = 0xFF
  · subst hb; cases Config.zpPtrHiWrap <;> rfl
  · have : b.toNat ≠ 255 := fun h => hb (BitVec.eq_of_toNat_eq h)
    have := b.isLt
    rw [if_neg hb, if_neg ‹_›]; simp [BitVec.toNat_add]; omega

/-- Operand resolution depends on X, Y and memory alone. -/
theorem resolve_congr (i : Instr) {s t : State} (hx : t.x = s.x) (hy : t.y = s.y) (hm : t.mem = s.mem) :
    effectiveAddress i t = effectiveAddress i s ∧ operandValue i t = operandValue i s := by
  have hr : ∀ a, t.readByte a = s.readByte a := fun a => by simp only [State.readByte, hm]
  constructor
  · cases h : i.operand <;> simp only [effectiveAddress, Operand.ea, h, eaZpx, eaZpy, eaAbsx, eaAbsy, eaInd, eaIndx,
      eaIndy, ptrIndx, State.readWord, hr, hx, hy]
  · cases h : i.operand <;> simp only [operandValue, Operand.value, h, eaZpx, eaZpy, eaAbsx, eaAbsy, eaIndx, eaIndy,
      ptrIndx, State.readWord, hr, hx, hy]

end Sys2Proof.Machine
end

