-- ==== Sys2Proof/Laws/Decode.lean ====
section
/-! SUPPORT. The small lemmas of the decoder and the encoder. -/

namespace Sys2Proof

/-- Every instruction is well formed. -/
@[simp] theorem Instr.wellFormed_true (i : Instr) : i.wellFormed = true := by
  cases i <;> rfl

/-- The pieces of an instruction make that instruction. -/
@[simp] theorem Instr.ofParts_pieces (i : Instr) : Instr.ofParts i.operation i.operand = some i := by
  cases i <;> rfl

/-- What pieces make up the instruction that two pieces make. -/
theorem Instr.ofParts_some {op : Operation} {o : Operand} {i : Instr} (h : Instr.ofParts op o = some i) :
    i.operation = op ∧ i.operand = o := by
  cases op <;> cases o <;> cases h <;> exact ⟨rfl, rfl⟩

/-- Pieces make an instruction exactly when they are well formed. -/
theorem Instr.ofParts_isSome (op : Operation) (o : Operand) :
    (Instr.ofParts op o).isSome = wellFormedPair op o := by
  cases op <;> cases o <;> rfl

theorem Operand.ofBytes_mode (m : Mode) (b1 b2 : Byte) : (Operand.ofBytes m b1 b2).mode = m := by
  cases m <;> rfl

/-- An operand has as many bytes as its mode consumes. -/
theorem Operand.bytes_length (o : Operand) : o.bytes.length = o.mode.operandBytes := by
  cases o <;> rfl

/-- Taking the bytes of an operand off the front of a list, and assembling them, gives the operand back. -/
theorem takeOperandBytes_bytes (o : Operand) (rest : List Byte) :
    ∃ b1 b2, takeOperandBytes o.mode.operandBytes (o.bytes ++ rest) = some (b1, b2, rest) ∧
      Operand.ofBytes o.mode b1 b2 = o := by
  cases o <;> refine ⟨_, _, rfl, ?_⟩ <;> simp only [Operand.ofBytes, Operand.mode, word16_low_high]

/-- Bytes taken off a list are the bytes of the operand they assemble to. -/
theorem takeOperandBytes_some {m : Mode} {bs rest : List Byte} {b1 b2 : Byte}
    (h : takeOperandBytes m.operandBytes bs = some (b1, b2, rest)) :
    (Operand.ofBytes m b1 b2).bytes ++ rest = bs := by
  cases m <;> rcases bs with _ | ⟨c, _ | ⟨d, bs⟩⟩ <;>
    simp_all [takeOperandBytes, Mode.operandBytes, Operand.ofBytes, Operand.bytes, lowByte_word16, highByte_word16]

/-- A list without two entries for one byte finds exactly its members. -/
theorem find_catalogDistinct {c : List CatalogEntry} (hc : catalogDistinct c = true) (e : CatalogEntry) :
    c.find? (fun f => f.opcode == e.opcode) = some e ↔ e ∈ c := by
  induction c with
  | nil => simp
  | cons f c ih =>
    simp only [catalogDistinct, Bool.and_eq_true, List.all_eq_true, bne_iff_ne] at hc
    by_cases hf : f.opcode = e.opcode
    · have hne : e ∉ c := fun hm => hc.1 e hm hf.symm
      simp only [List.find?_cons, hf, BEq.rfl, Option.some.injEq, List.mem_cons, hne, or_false, eq_comm]
    · have hfe : e ≠ f := fun h => hf (by rw [h])
      simp only [List.find?_cons, beq_eq_false_iff_ne.2 hf, ih hc.2, List.mem_cons, hfe, false_or]

/-- The decoder's table holds exactly the catalog's entries (R87, R88). -/
theorem opcodeTable_eq_some {b : Byte} {m : Mode} {op : Operation} :
    opcodeTable b = some (m, op) ↔ (⟨b, m, op⟩ : CatalogEntry) ∈ catalog := by
  rw [← find_catalogDistinct (by decide) ⟨b, m, op⟩]
  simp only [opcodeTable, Option.map_eq_some_iff, Prod.mk.injEq]
  constructor
  · rintro ⟨e, he, rfl, rfl⟩
    have hb : e.opcode = b := by simpa using List.find?_some he
    subst hb
    exact he
  · exact fun h => ⟨_, h, rfl, rfl⟩

/-- The table entry of an opcode byte, for each byte that has one: the operation supports the mode. -/
theorem opcodeTable_supported {b : Byte} {m : Mode} {op : Operation} (h : opcodeTable b = some (m, op)) :
    op.modes.contains m = true := by
  have hall : catalogModesSupported catalog = true := by decide
  simp only [opcodeTable, Option.map_eq_some_iff, Prod.mk.injEq] at h
  obtain ⟨e, he, rfl, rfl⟩ := h
  exact List.all_eq_true.1 hall e (List.mem_of_find?_eq_some he)

/-- With the fixed table every pair the table gives has a rule (R130): assembling never fails. -/
theorem ofParts_opcodeTable {b : Byte} {m : Mode} {op : Operation} (h : opcodeTable b = some (m, op)) (b1 b2 : Byte) :
    ∃ i, Instr.ofParts op (Operand.ofBytes m b1 b2) = some i := by
  rw [← Option.isSome_iff_exists, Instr.ofParts_isSome, wellFormedPair, Operand.ofBytes_mode]
  exact opcodeTable_supported h

/-- What a successful decoding says about the bytes. -/
theorem decode_ok {bs rest : List Byte} {i : Instr} (h : decode bs = .ok i rest) :
    ∃ b tail, bs = b :: tail ∧ opcodeTable b = some (i.mode, i.operation) ∧ tail = i.operand.bytes ++ rest := by
  cases bs with
  | nil => cases h
  | cons b tail =>
    simp only [decode] at h
    split at h
    · cases h
    · rename_i m op ht
      split at h
      · cases h
      · rename_i b1 b2 r hb
        split at h
        · cases h
        · rename_i j hj
          cases h
          obtain ⟨h1, h2⟩ := Instr.ofParts_some hj
          have := takeOperandBytes_some hb
          refine ⟨b, tail, rfl, ?_, by rw [h2]; exact this.symm⟩
          rw [ht, Instr.mode, h2, Operand.ofBytes_mode, h1]

/-- The table gives each (mode, operation) pair one byte (R88). -/
theorem opcode_of_table {b : Byte} {i : Instr} (h : opcodeTable b = some (i.mode, i.operation)) : b = i.opcode := by
  have hm := opcodeTable_eq_some.1 h
  have hall : (catalog.all fun e => catalog.all fun f =>
      e.mode != f.mode || e.operation != f.operation || e.opcode == f.opcode) = true := by decide
  have : ∀ e ∈ catalog, ∀ f ∈ catalog, e.mode = f.mode → e.operation = f.operation → e.opcode = f.opcode := by
    intro e he f hf h1 h2
    have := List.all_eq_true.1 (List.all_eq_true.1 hall e he) f hf
    simpa [h1, h2] using this
  have hi : opcodeTable i.opcode = some (i.mode, i.operation) := by cases i <;> rfl
  exact this _ hm _ (opcodeTable_eq_some.1 hi) rfl rfl

end Sys2Proof
end

