-- ==== Sys2Proof/Laws/Flags.lean ====
section
/-! SUPPORT. What each flag computation does to each bit of P. -/

namespace Sys2Proof.Machine

/-- Writing a flag writes its bit and keeps every other bit. -/
theorem getLsbD_setFlag (f : Flag) (b : Bool) (p : Byte) (k : Nat) (hk : k < 8) :
    (setFlag f b p).getLsbD k = if k = f.bit then b else p.getLsbD k := by
  cases f <;> cases b <;> simp only [setFlag, Flag.bit] <;> interval_cases k <;> simp

/-- `setZN` writes bits 1 and 7 and keeps every other bit. -/
theorem getLsbD_setZN (v p : Byte) (k : Nat) (hk : k < 8) :
    (setZN v p).getLsbD k =
      if k = 7 then v.getLsbD 7 else if k = 1 then decide (v = 0) else p.getLsbD k := by
  simp only [setZN, getLsbD_setFlag _ _ _ _ hk, Flag.bit]
  rfl

/-- ADC writes bits 0, 1, 6 and 7 of P and keeps every other bit. -/
theorem getLsbD_adcFlags (a0 operand p : Byte) (k : Nat) (hk : k < 8) :
    (adcFlags a0 operand p).getLsbD k =
      if k = 7 then (adcResult a0 operand (p.getLsbD 0)).getLsbD 7
      else if k = 1 then decide (adcResult a0 operand (p.getLsbD 0) = 0)
      else if k = 6 then adcOverflow a0 operand (p.getLsbD 0)
      else if k = 0 then adcCarry a0 operand (p.getLsbD 0)
      else p.getLsbD k := by
  simp only [adcFlags, getLsbD_setZN _ _ _ hk, getLsbD_setFlag _ _ _ _ hk, Flag.bit, getFlag]
  rfl

/-- A compare writes bits 0, 1 and 7 of P and keeps every other bit. -/
theorem getLsbD_compareFlags (r operand p : Byte) (k : Nat) (hk : k < 8) :
    (compareFlags r operand p).getLsbD k =
      if k = 7 then (r - operand).getLsbD 7
      else if k = 1 then decide (r - operand = 0)
      else if k = 0 then decide (operand.toNat ≤ r.toNat)
      else p.getLsbD k := by
  simp only [compareFlags, getLsbD_setZN _ _ _ hk, getLsbD_setFlag _ _ _ _ hk, Flag.bit]
  rfl

theorem adcSum_le (a0 operand : Byte) (c : Bool) : adcSum a0 operand c ≤ 511 := by
  have := a0.isLt
  have := operand.isLt
  have := c.toNat_le
  simp only [adcSum]
  omega

end Sys2Proof.Machine
end

