-- ==== Sys2Proof/Laws/State.lean ====
section
/-! SUPPORT. One lemma for each field of each named update of the state. -/

namespace Sys2Proof.Machine

@[simp] theorem State.setA_a (s : State) (v : Byte) : (s.setA v).a = v := rfl
@[simp] theorem State.setA_x (s : State) (v : Byte) : (s.setA v).x = s.x := rfl
@[simp] theorem State.setA_y (s : State) (v : Byte) : (s.setA v).y = s.y := rfl
@[simp] theorem State.setA_sp (s : State) (v : Byte) : (s.setA v).sp = s.sp := rfl
@[simp] theorem State.setA_p (s : State) (v : Byte) : (s.setA v).p = s.p := rfl
@[simp] theorem State.setA_pc (s : State) (v : Byte) : (s.setA v).pc = s.pc := rfl
@[simp] theorem State.setA_run (s : State) (v : Byte) : (s.setA v).run = s.run := rfl
@[simp] theorem State.setA_faultKind (s : State) (v : Byte) : (s.setA v).faultKind = s.faultKind := rfl
@[simp] theorem State.setA_faultOpcode (s : State) (v : Byte) : (s.setA v).faultOpcode = s.faultOpcode := rfl
@[simp] theorem State.setA_faultAddr (s : State) (v : Byte) : (s.setA v).faultAddr = s.faultAddr := rfl
@[simp] theorem State.setA_mem (s : State) (v : Byte) : (s.setA v).mem = s.mem := rfl

@[simp] theorem State.setX_a (s : State) (v : Byte) : (s.setX v).a = s.a := rfl
@[simp] theorem State.setX_x (s : State) (v : Byte) : (s.setX v).x = v := rfl
@[simp] theorem State.setX_y (s : State) (v : Byte) : (s.setX v).y = s.y := rfl
@[simp] theorem State.setX_sp (s : State) (v : Byte) : (s.setX v).sp = s.sp := rfl
@[simp] theorem State.setX_p (s : State) (v : Byte) : (s.setX v).p = s.p := rfl
@[simp] theorem State.setX_pc (s : State) (v : Byte) : (s.setX v).pc = s.pc := rfl
@[simp] theorem State.setX_run (s : State) (v : Byte) : (s.setX v).run = s.run := rfl
@[simp] theorem State.setX_faultKind (s : State) (v : Byte) : (s.setX v).faultKind = s.faultKind := rfl
@[simp] theorem State.setX_faultOpcode (s : State) (v : Byte) : (s.setX v).faultOpcode = s.faultOpcode := rfl
@[simp] theorem State.setX_faultAddr (s : State) (v : Byte) : (s.setX v).faultAddr = s.faultAddr := rfl
@[simp] theorem State.setX_mem (s : State) (v : Byte) : (s.setX v).mem = s.mem := rfl

@[simp] theorem State.setY_a (s : State) (v : Byte) : (s.setY v).a = s.a := rfl
@[simp] theorem State.setY_x (s : State) (v : Byte) : (s.setY v).x = s.x := rfl
@[simp] theorem State.setY_y (s : State) (v : Byte) : (s.setY v).y = v := rfl
@[simp] theorem State.setY_sp (s : State) (v : Byte) : (s.setY v).sp = s.sp := rfl
@[simp] theorem State.setY_p (s : State) (v : Byte) : (s.setY v).p = s.p := rfl
@[simp] theorem State.setY_pc (s : State) (v : Byte) : (s.setY v).pc = s.pc := rfl
@[simp] theorem State.setY_run (s : State) (v : Byte) : (s.setY v).run = s.run := rfl
@[simp] theorem State.setY_faultKind (s : State) (v : Byte) : (s.setY v).faultKind = s.faultKind := rfl
@[simp] theorem State.setY_faultOpcode (s : State) (v : Byte) : (s.setY v).faultOpcode = s.faultOpcode := rfl
@[simp] theorem State.setY_faultAddr (s : State) (v : Byte) : (s.setY v).faultAddr = s.faultAddr := rfl
@[simp] theorem State.setY_mem (s : State) (v : Byte) : (s.setY v).mem = s.mem := rfl

@[simp] theorem State.setSp_a (s : State) (v : Byte) : (s.setSp v).a = s.a := rfl
@[simp] theorem State.setSp_x (s : State) (v : Byte) : (s.setSp v).x = s.x := rfl
@[simp] theorem State.setSp_y (s : State) (v : Byte) : (s.setSp v).y = s.y := rfl
@[simp] theorem State.setSp_sp (s : State) (v : Byte) : (s.setSp v).sp = v := rfl
@[simp] theorem State.setSp_p (s : State) (v : Byte) : (s.setSp v).p = s.p := rfl
@[simp] theorem State.setSp_pc (s : State) (v : Byte) : (s.setSp v).pc = s.pc := rfl
@[simp] theorem State.setSp_run (s : State) (v : Byte) : (s.setSp v).run = s.run := rfl
@[simp] theorem State.setSp_faultKind (s : State) (v : Byte) : (s.setSp v).faultKind = s.faultKind := rfl
@[simp] theorem State.setSp_faultOpcode (s : State) (v : Byte) : (s.setSp v).faultOpcode = s.faultOpcode := rfl
@[simp] theorem State.setSp_faultAddr (s : State) (v : Byte) : (s.setSp v).faultAddr = s.faultAddr := rfl
@[simp] theorem State.setSp_mem (s : State) (v : Byte) : (s.setSp v).mem = s.mem := rfl

@[simp] theorem State.setP_a (s : State) (v : Byte) : (s.setP v).a = s.a := rfl
@[simp] theorem State.setP_x (s : State) (v : Byte) : (s.setP v).x = s.x := rfl
@[simp] theorem State.setP_y (s : State) (v : Byte) : (s.setP v).y = s.y := rfl
@[simp] theorem State.setP_sp (s : State) (v : Byte) : (s.setP v).sp = s.sp := rfl
@[simp] theorem State.setP_p (s : State) (v : Byte) : (s.setP v).p = v := rfl
@[simp] theorem State.setP_pc (s : State) (v : Byte) : (s.setP v).pc = s.pc := rfl
@[simp] theorem State.setP_run (s : State) (v : Byte) : (s.setP v).run = s.run := rfl
@[simp] theorem State.setP_faultKind (s : State) (v : Byte) : (s.setP v).faultKind = s.faultKind := rfl
@[simp] theorem State.setP_faultOpcode (s : State) (v : Byte) : (s.setP v).faultOpcode = s.faultOpcode := rfl
@[simp] theorem State.setP_faultAddr (s : State) (v : Byte) : (s.setP v).faultAddr = s.faultAddr := rfl
@[simp] theorem State.setP_mem (s : State) (v : Byte) : (s.setP v).mem = s.mem := rfl

@[simp] theorem State.setPc_a (s : State) (v : Addr) : (s.setPc v).a = s.a := rfl
@[simp] theorem State.setPc_x (s : State) (v : Addr) : (s.setPc v).x = s.x := rfl
@[simp] theorem State.setPc_y (s : State) (v : Addr) : (s.setPc v).y = s.y := rfl
@[simp] theorem State.setPc_sp (s : State) (v : Addr) : (s.setPc v).sp = s.sp := rfl
@[simp] theorem State.setPc_p (s : State) (v : Addr) : (s.setPc v).p = s.p := rfl
@[simp] theorem State.setPc_pc (s : State) (v : Addr) : (s.setPc v).pc = v := rfl
@[simp] theorem State.setPc_run (s : State) (v : Addr) : (s.setPc v).run = s.run := rfl
@[simp] theorem State.setPc_faultKind (s : State) (v : Addr) : (s.setPc v).faultKind = s.faultKind := rfl
@[simp] theorem State.setPc_faultOpcode (s : State) (v : Addr) : (s.setPc v).faultOpcode = s.faultOpcode := rfl
@[simp] theorem State.setPc_faultAddr (s : State) (v : Addr) : (s.setPc v).faultAddr = s.faultAddr := rfl
@[simp] theorem State.setPc_mem (s : State) (v : Addr) : (s.setPc v).mem = s.mem := rfl

@[simp] theorem State.setRun_a (s : State) (v : RunState) : (s.setRun v).a = s.a := rfl
@[simp] theorem State.setRun_x (s : State) (v : RunState) : (s.setRun v).x = s.x := rfl
@[simp] theorem State.setRun_y (s : State) (v : RunState) : (s.setRun v).y = s.y := rfl
@[simp] theorem State.setRun_sp (s : State) (v : RunState) : (s.setRun v).sp = s.sp := rfl
@[simp] theorem State.setRun_p (s : State) (v : RunState) : (s.setRun v).p = s.p := rfl
@[simp] theorem State.setRun_pc (s : State) (v : RunState) : (s.setRun v).pc = s.pc := rfl
@[simp] theorem State.setRun_run (s : State) (v : RunState) : (s.setRun v).run = v := rfl
@[simp] theorem State.setRun_faultKind (s : State) (v : RunState) : (s.setRun v).faultKind = s.faultKind := rfl
@[simp] theorem State.setRun_faultOpcode (s : State) (v : RunState) : (s.setRun v).faultOpcode = s.faultOpcode := rfl
@[simp] theorem State.setRun_faultAddr (s : State) (v : RunState) : (s.setRun v).faultAddr = s.faultAddr := rfl
@[simp] theorem State.setRun_mem (s : State) (v : RunState) : (s.setRun v).mem = s.mem := rfl

@[simp] theorem State.setMem_a (s : State) (v : Memory) : (s.setMem v).a = s.a := rfl
@[simp] theorem State.setMem_x (s : State) (v : Memory) : (s.setMem v).x = s.x := rfl
@[simp] theorem State.setMem_y (s : State) (v : Memory) : (s.setMem v).y = s.y := rfl
@[simp] theorem State.setMem_sp (s : State) (v : Memory) : (s.setMem v).sp = s.sp := rfl
@[simp] theorem State.setMem_p (s : State) (v : Memory) : (s.setMem v).p = s.p := rfl
@[simp] theorem State.setMem_pc (s : State) (v : Memory) : (s.setMem v).pc = s.pc := rfl
@[simp] theorem State.setMem_run (s : State) (v : Memory) : (s.setMem v).run = s.run := rfl
@[simp] theorem State.setMem_faultKind (s : State) (v : Memory) : (s.setMem v).faultKind = s.faultKind := rfl
@[simp] theorem State.setMem_faultOpcode (s : State) (v : Memory) : (s.setMem v).faultOpcode = s.faultOpcode := rfl
@[simp] theorem State.setMem_faultAddr (s : State) (v : Memory) : (s.setMem v).faultAddr = s.faultAddr := rfl
@[simp] theorem State.setMem_mem (s : State) (v : Memory) : (s.setMem v).mem = v := rfl

@[simp] theorem State.loadA_a (s : State) (v : Byte) : (s.loadA v).a = v := rfl
@[simp] theorem State.loadA_x (s : State) (v : Byte) : (s.loadA v).x = s.x := rfl
@[simp] theorem State.loadA_y (s : State) (v : Byte) : (s.loadA v).y = s.y := rfl
@[simp] theorem State.loadA_sp (s : State) (v : Byte) : (s.loadA v).sp = s.sp := rfl
@[simp] theorem State.loadA_p (s : State) (v : Byte) : (s.loadA v).p = setZN v s.p := rfl
@[simp] theorem State.loadA_pc (s : State) (v : Byte) : (s.loadA v).pc = s.pc := rfl
@[simp] theorem State.loadA_run (s : State) (v : Byte) : (s.loadA v).run = s.run := rfl
@[simp] theorem State.loadA_faultKind (s : State) (v : Byte) : (s.loadA v).faultKind = s.faultKind := rfl
@[simp] theorem State.loadA_faultOpcode (s : State) (v : Byte) : (s.loadA v).faultOpcode = s.faultOpcode := rfl
@[simp] theorem State.loadA_faultAddr (s : State) (v : Byte) : (s.loadA v).faultAddr = s.faultAddr := rfl
@[simp] theorem State.loadA_mem (s : State) (v : Byte) : (s.loadA v).mem = s.mem := rfl

@[simp] theorem State.loadX_a (s : State) (v : Byte) : (s.loadX v).a = s.a := rfl
@[simp] theorem State.loadX_x (s : State) (v : Byte) : (s.loadX v).x = v := rfl
@[simp] theorem State.loadX_y (s : State) (v : Byte) : (s.loadX v).y = s.y := rfl
@[simp] theorem State.loadX_sp (s : State) (v : Byte) : (s.loadX v).sp = s.sp := rfl
@[simp] theorem State.loadX_p (s : State) (v : Byte) : (s.loadX v).p = setZN v s.p := rfl
@[simp] theorem State.loadX_pc (s : State) (v : Byte) : (s.loadX v).pc = s.pc := rfl
@[simp] theorem State.loadX_run (s : State) (v : Byte) : (s.loadX v).run = s.run := rfl
@[simp] theorem State.loadX_faultKind (s : State) (v : Byte) : (s.loadX v).faultKind = s.faultKind := rfl
@[simp] theorem State.loadX_faultOpcode (s : State) (v : Byte) : (s.loadX v).faultOpcode = s.faultOpcode := rfl
@[simp] theorem State.loadX_faultAddr (s : State) (v : Byte) : (s.loadX v).faultAddr = s.faultAddr := rfl
@[simp] theorem State.loadX_mem (s : State) (v : Byte) : (s.loadX v).mem = s.mem := rfl

@[simp] theorem State.loadY_a (s : State) (v : Byte) : (s.loadY v).a = s.a := rfl
@[simp] theorem State.loadY_x (s : State) (v : Byte) : (s.loadY v).x = s.x := rfl
@[simp] theorem State.loadY_y (s : State) (v : Byte) : (s.loadY v).y = v := rfl
@[simp] theorem State.loadY_sp (s : State) (v : Byte) : (s.loadY v).sp = s.sp := rfl
@[simp] theorem State.loadY_p (s : State) (v : Byte) : (s.loadY v).p = setZN v s.p := rfl
@[simp] theorem State.loadY_pc (s : State) (v : Byte) : (s.loadY v).pc = s.pc := rfl
@[simp] theorem State.loadY_run (s : State) (v : Byte) : (s.loadY v).run = s.run := rfl
@[simp] theorem State.loadY_faultKind (s : State) (v : Byte) : (s.loadY v).faultKind = s.faultKind := rfl
@[simp] theorem State.loadY_faultOpcode (s : State) (v : Byte) : (s.loadY v).faultOpcode = s.faultOpcode := rfl
@[simp] theorem State.loadY_faultAddr (s : State) (v : Byte) : (s.loadY v).faultAddr = s.faultAddr := rfl
@[simp] theorem State.loadY_mem (s : State) (v : Byte) : (s.loadY v).mem = s.mem := rfl

@[simp] theorem State.addToA_a (s : State) (v : Byte) : (s.addToA v).a = adcResult s.a v (getFlag .c s.p) := rfl
@[simp] theorem State.addToA_x (s : State) (v : Byte) : (s.addToA v).x = s.x := rfl
@[simp] theorem State.addToA_y (s : State) (v : Byte) : (s.addToA v).y = s.y := rfl
@[simp] theorem State.addToA_sp (s : State) (v : Byte) : (s.addToA v).sp = s.sp := rfl
@[simp] theorem State.addToA_p (s : State) (v : Byte) : (s.addToA v).p = adcFlags s.a v s.p := rfl
@[simp] theorem State.addToA_pc (s : State) (v : Byte) : (s.addToA v).pc = s.pc := rfl
@[simp] theorem State.addToA_run (s : State) (v : Byte) : (s.addToA v).run = s.run := rfl
@[simp] theorem State.addToA_faultKind (s : State) (v : Byte) : (s.addToA v).faultKind = s.faultKind := rfl
@[simp] theorem State.addToA_faultOpcode (s : State) (v : Byte) : (s.addToA v).faultOpcode = s.faultOpcode := rfl
@[simp] theorem State.addToA_faultAddr (s : State) (v : Byte) : (s.addToA v).faultAddr = s.faultAddr := rfl
@[simp] theorem State.addToA_mem (s : State) (v : Byte) : (s.addToA v).mem = s.mem := rfl

@[simp] theorem State.compareWith_a (s : State) (r v : Byte) : (s.compareWith r v).a = s.a := rfl
@[simp] theorem State.compareWith_x (s : State) (r v : Byte) : (s.compareWith r v).x = s.x := rfl
@[simp] theorem State.compareWith_y (s : State) (r v : Byte) : (s.compareWith r v).y = s.y := rfl
@[simp] theorem State.compareWith_sp (s : State) (r v : Byte) : (s.compareWith r v).sp = s.sp := rfl
@[simp] theorem State.compareWith_p (s : State) (r v : Byte) : (s.compareWith r v).p = compareFlags r v s.p := rfl
@[simp] theorem State.compareWith_pc (s : State) (r v : Byte) : (s.compareWith r v).pc = s.pc := rfl
@[simp] theorem State.compareWith_run (s : State) (r v : Byte) : (s.compareWith r v).run = s.run := rfl
@[simp] theorem State.compareWith_faultKind (s : State) (r v : Byte) : (s.compareWith r v).faultKind = s.faultKind := rfl
@[simp] theorem State.compareWith_faultOpcode (s : State) (r v : Byte) : (s.compareWith r v).faultOpcode = s.faultOpcode := rfl
@[simp] theorem State.compareWith_faultAddr (s : State) (r v : Byte) : (s.compareWith r v).faultAddr = s.faultAddr := rfl
@[simp] theorem State.compareWith_mem (s : State) (r v : Byte) : (s.compareWith r v).mem = s.mem := rfl

@[simp] theorem State.writeByte_a (s : State) (a : Addr) (v : Byte) : (s.writeByte a v).a = s.a := rfl
@[simp] theorem State.writeByte_x (s : State) (a : Addr) (v : Byte) : (s.writeByte a v).x = s.x := rfl
@[simp] theorem State.writeByte_y (s : State) (a : Addr) (v : Byte) : (s.writeByte a v).y = s.y := rfl
@[simp] theorem State.writeByte_sp (s : State) (a : Addr) (v : Byte) : (s.writeByte a v).sp = s.sp := rfl
@[simp] theorem State.writeByte_p (s : State) (a : Addr) (v : Byte) : (s.writeByte a v).p = s.p := rfl
@[simp] theorem State.writeByte_pc (s : State) (a : Addr) (v : Byte) : (s.writeByte a v).pc = s.pc := rfl
@[simp] theorem State.writeByte_run (s : State) (a : Addr) (v : Byte) : (s.writeByte a v).run = s.run := rfl
@[simp] theorem State.writeByte_faultKind (s : State) (a : Addr) (v : Byte) : (s.writeByte a v).faultKind = s.faultKind := rfl
@[simp] theorem State.writeByte_faultOpcode (s : State) (a : Addr) (v : Byte) : (s.writeByte a v).faultOpcode = s.faultOpcode := rfl
@[simp] theorem State.writeByte_faultAddr (s : State) (a : Addr) (v : Byte) : (s.writeByte a v).faultAddr = s.faultAddr := rfl
@[simp] theorem State.writeByte_mem (s : State) (a : Addr) (v : Byte) : (s.writeByte a v).mem = s.mem.write a.toNat v := rfl

@[simp] theorem State.raiseFault_a (s : State) (k : FaultKind) (op : Byte) (a0 : Addr) :
    (s.raiseFault k op a0).a = s.a := rfl
@[simp] theorem State.raiseFault_x (s : State) (k : FaultKind) (op : Byte) (a0 : Addr) :
    (s.raiseFault k op a0).x = s.x := rfl
@[simp] theorem State.raiseFault_y (s : State) (k : FaultKind) (op : Byte) (a0 : Addr) :
    (s.raiseFault k op a0).y = s.y := rfl
@[simp] theorem State.raiseFault_sp (s : State) (k : FaultKind) (op : Byte) (a0 : Addr) :
    (s.raiseFault k op a0).sp = s.sp := rfl
@[simp] theorem State.raiseFault_p (s : State) (k : FaultKind) (op : Byte) (a0 : Addr) :
    (s.raiseFault k op a0).p = s.p := rfl
@[simp] theorem State.raiseFault_pc (s : State) (k : FaultKind) (op : Byte) (a0 : Addr) :
    (s.raiseFault k op a0).pc = s.pc := rfl
@[simp] theorem State.raiseFault_run (s : State) (k : FaultKind) (op : Byte) (a0 : Addr) :
    (s.raiseFault k op a0).run = .faulted := rfl
@[simp] theorem State.raiseFault_faultKind (s : State) (k : FaultKind) (op : Byte) (a0 : Addr) :
    (s.raiseFault k op a0).faultKind = k := rfl
@[simp] theorem State.raiseFault_faultOpcode (s : State) (k : FaultKind) (op : Byte) (a0 : Addr) :
    (s.raiseFault k op a0).faultOpcode = op := rfl
@[simp] theorem State.raiseFault_faultAddr (s : State) (k : FaultKind) (op : Byte) (a0 : Addr) :
    (s.raiseFault k op a0).faultAddr = a0 := rfl
@[simp] theorem State.raiseFault_mem (s : State) (k : FaultKind) (op : Byte) (a0 : Addr) :
    (s.raiseFault k op a0).mem = s.mem := rfl

@[simp] theorem State.skip_a (s : State) (k : Nat) : (s.skip k).a = s.a := rfl
@[simp] theorem State.skip_x (s : State) (k : Nat) : (s.skip k).x = s.x := rfl
@[simp] theorem State.skip_y (s : State) (k : Nat) : (s.skip k).y = s.y := rfl
@[simp] theorem State.skip_sp (s : State) (k : Nat) : (s.skip k).sp = s.sp := rfl
@[simp] theorem State.skip_p (s : State) (k : Nat) : (s.skip k).p = s.p := rfl
@[simp] theorem State.skip_pc (s : State) (k : Nat) : (s.skip k).pc = s.pc + BitVec.ofNat 16 k := rfl
@[simp] theorem State.skip_run (s : State) (k : Nat) : (s.skip k).run = s.run := rfl
@[simp] theorem State.skip_faultKind (s : State) (k : Nat) : (s.skip k).faultKind = s.faultKind := rfl
@[simp] theorem State.skip_faultOpcode (s : State) (k : Nat) : (s.skip k).faultOpcode = s.faultOpcode := rfl
@[simp] theorem State.skip_faultAddr (s : State) (k : Nat) : (s.skip k).faultAddr = s.faultAddr := rfl
@[simp] theorem State.skip_mem (s : State) (k : Nat) : (s.skip k).mem = s.mem := rfl

end Sys2Proof.Machine
end

