-- ==== Sys2Proof/Laws/Memory.lean ====
section
/-! SUPPORT. The laws of memory: read after write, the canonical form kept by every operation, and equal reads make equal
canonical memories. -/

namespace Sys2Proof.Machine

@[simp] theorem Memory.read_nil (a : Nat) : Memory.read [] a = 0x00 := rfl

theorem Memory.read_cons (b : Nat) (v : Byte) (m : Memory) (a : Nat) :
    Memory.read ((b, v) :: m) a = if b = a then v else Memory.read m a := rfl

@[simp] theorem Memory.wfFrom_nil (lo : Nat) : Memory.wfFrom lo [] = true := rfl

/-- What it says that a non-empty list is canonical from a bound on. -/
theorem Memory.wfFrom_cons (lo a : Nat) (v : Byte) (m : Memory) :
    Memory.wfFrom lo ((a, v) :: m) = true ↔
      lo ≤ a ∧ a < Config.memSize ∧ v ≠ Memory.unlisted ∧ Memory.wfFrom (a + 1) m = true := by
  simp [Memory.wfFrom, and_assoc]

theorem Memory.wfFrom_mono {lo lo' : Nat} {m : Memory} (h : lo' ≤ lo) (hm : Memory.wfFrom lo m = true) :
    Memory.wfFrom lo' m = true := by
  cases m with
  | nil => rfl
  | cons c m =>
    rw [Memory.wfFrom_cons] at hm ⊢
    exact ⟨h.trans hm.1, hm.2⟩

/-- Below its bound a canonical list holds nothing. -/
theorem Memory.read_below {lo a : Nat} {m : Memory} (hm : Memory.wfFrom lo m = true) (h : a < lo) :
    Memory.read m a = Memory.unlisted := by
  induction m generalizing lo with
  | nil => rfl
  | cons c m ih =>
    obtain ⟨h1, -, -, h4⟩ := (Memory.wfFrom_cons ..).1 hm
    rw [Memory.read_cons, if_neg (by omega)]
    exact ih h4 (by omega)

theorem Memory.read_write_same {m : Memory} {lo : Nat} (hm : Memory.wfFrom lo m = true) (a : Nat) (v : Byte) :
    (m.write a v).read a = v := by
  induction m generalizing lo with
  | nil =>
    by_cases hv : v = Memory.unlisted
    · simp [Memory.write, hv, Memory.unlisted]
    · simp [Memory.write, hv, Memory.read]
  | cons c m ih =>
    obtain ⟨b, w⟩ := c
    obtain ⟨h1, -, -, h4⟩ := (Memory.wfFrom_cons ..).1 hm
    by_cases hv : v = Memory.unlisted
    · by_cases hlt : a < b
      · simp only [Memory.write, if_pos hlt, if_pos hv, Memory.read_cons, if_neg (Nat.ne_of_gt hlt)]
        rw [hv]; exact Memory.read_below h4 (by omega)
      · by_cases heq : a = b
        · simp only [Memory.write, if_neg hlt, if_pos heq, if_pos hv]
          rw [hv]; exact Memory.read_below h4 (by omega)
        · simp only [Memory.write, if_neg hlt, if_neg heq, Memory.read_cons, if_neg (Ne.symm heq)]
          exact ih h4
    · by_cases hlt : a < b
      · simp [Memory.write, hlt, hv, Memory.read_cons]
      · by_cases heq : a = b
        · simp [Memory.write, heq, hv, Memory.read_cons]
        · simp only [Memory.write, if_neg hlt, if_neg heq, Memory.read_cons, if_neg (Ne.symm heq)]
          exact ih h4

theorem Memory.read_write_other {m : Memory} {a b : Nat} (h : b ≠ a) (v : Byte) :
    (m.write a v).read b = m.read b := by
  induction m with
  | nil =>
    by_cases hv : v = Memory.unlisted
    · simp [Memory.write, hv]
    · simp [Memory.write, hv, Memory.read, h.symm]
  | cons c m ih =>
    obtain ⟨d, w⟩ := c
    by_cases hlt : a < d
    · by_cases hv : v = Memory.unlisted
      · simp [Memory.write, hlt, hv]
      · simp [Memory.write, hlt, hv, Memory.read_cons, h.symm]
    · by_cases heq : a = d
      · subst heq
        by_cases hv : v = Memory.unlisted
        · simp [Memory.write, hv, Memory.read_cons, h.symm]
        · simp [Memory.write, hv, Memory.read_cons, h.symm]
      · simp only [Memory.write, if_neg hlt, if_neg heq, Memory.read_cons, ih]

theorem Memory.write_wfFrom {m : Memory} {lo a : Nat} (hm : Memory.wfFrom lo m = true) (hlo : lo ≤ a)
    (ha : a < Config.memSize) (v : Byte) : Memory.wfFrom lo (m.write a v) = true := by
  induction m generalizing lo with
  | nil =>
    by_cases hv : v = Memory.unlisted
    · simp [Memory.write, hv]
    · simp only [Memory.write, if_neg hv, Memory.wfFrom_cons]
      exact ⟨hlo, ha, hv, rfl⟩
  | cons c m ih =>
    obtain ⟨b, w⟩ := c
    obtain ⟨h1, h2, h3, h4⟩ := (Memory.wfFrom_cons ..).1 hm
    by_cases hlt : a < b
    · by_cases hv : v = Memory.unlisted
      · simpa only [Memory.write, if_pos hlt, if_pos hv] using hm
      · simp only [Memory.write, if_pos hlt, if_neg hv, Memory.wfFrom_cons]
        exact ⟨hlo, ha, hv, hlt, h2, h3, h4⟩
    · by_cases heq : a = b
      · by_cases hv : v = Memory.unlisted
        · simp only [Memory.write, if_neg hlt, if_pos heq, if_pos hv]
          exact Memory.wfFrom_mono (by omega) h4
        · simp only [Memory.write, if_neg hlt, if_pos heq, if_neg hv, Memory.wfFrom_cons]
          exact ⟨hlo, ha, hv, heq ▸ h4⟩
      · simp only [Memory.write, if_neg hlt, if_neg heq, Memory.wfFrom_cons]
        exact ⟨h1, h2, h3, ih h4 (by omega)⟩

/-- A write inside the address space keeps the canonical form. -/
theorem Memory.write_wf {m : Memory} (hm : m.wf = true) (a : Addr) (v : Byte) :
    (m.write a.toNat v).wf = true :=
  Memory.write_wfFrom hm (Nat.zero_le _) a.isLt v

theorem Memory.ext_from {m n : Memory} {lo : Nat} (hm : Memory.wfFrom lo m = true) (hn : Memory.wfFrom lo n = true)
    (h : ∀ a, m.read a = n.read a) : m = n := by
  induction m generalizing n lo with
  | nil =>
    cases n with
    | nil => rfl
    | cons d n =>
      obtain ⟨e, w⟩ := d
      obtain ⟨-, -, h3, -⟩ := (Memory.wfFrom_cons ..).1 hn
      have := h e
      rw [Memory.read_cons, if_pos rfl] at this
      exact absurd this.symm h3
  | cons c m ih =>
    obtain ⟨b, v⟩ := c
    obtain ⟨-, -, m3, m4⟩ := (Memory.wfFrom_cons ..).1 hm
    cases n with
    | nil =>
      have := h b
      rw [Memory.read_cons, if_pos rfl] at this
      exact absurd this m3
    | cons d n =>
      obtain ⟨e, w⟩ := d
      obtain ⟨-, -, n3, n4⟩ := (Memory.wfFrom_cons ..).1 hn
      have hbe : b = e := by
        rcases Nat.lt_trichotomy b e with hlt | heq | hgt
        · have := h b
          rw [Memory.read_cons, if_pos rfl, Memory.read_cons, if_neg (by omega),
            Memory.read_below n4 (by omega)] at this
          exact absurd this m3
        · exact heq
        · have := h e
          rw [Memory.read_cons, if_neg (by omega), Memory.read_below m4 (by omega), Memory.read_cons,
            if_pos rfl] at this
          exact absurd this.symm n3
      subst hbe
      have hvw : v = w := by simpa [Memory.read_cons] using h b
      subst hvw
      refine congrArg _ (ih m4 n4 fun a => ?_)
      by_cases hab : b = a
      · subst hab; rw [Memory.read_below m4 (by omega), Memory.read_below n4 (by omega)]
      · simpa [Memory.read_cons, hab] using h a

/-- Canonical memories that read the same are the same list. -/
theorem Memory.ext {m n : Memory} (hm : m.wf = true) (hn : n.wf = true) (h : ∀ a, m.read a = n.read a) : m = n :=
  Memory.ext_from hm hn h

/-! ## The same for bytes of the state -/

@[simp] theorem State.readByte_writeByte_same {s : State} (hm : s.mem.wf = true) (a : Addr) (v : Byte) :
    (s.writeByte a v).readByte a = v :=
  Memory.read_write_same hm _ v

theorem State.readByte_writeByte_other (s : State) {a b : Addr} (h : b ≠ a) (v : Byte) :
    (s.writeByte a v).readByte b = s.readByte b :=
  Memory.read_write_other (fun hn => h (BitVec.eq_of_toNat_eq hn)) v

theorem State.writeByte_wf {s : State} (hm : s.mem.wf = true) (a : Addr) (v : Byte) :
    (s.writeByte a v).mem.wf = true :=
  Memory.write_wf hm a v

/-- A read depends on the memory alone. -/
theorem State.readByte_congr {s t : State} (h : t.mem = s.mem) (a : Addr) : t.readByte a = s.readByte a := by
  simp only [State.readByte, h]

end Sys2Proof.Machine
end

