-- ==== Sys2Proof/Laws/Exec.lean ====
section
/-! SUPPORT. What `exec` does, once for each operation, and once for all of them: the meanings of the sixty forms are the
sixteen operations applied to what the resolver gives. -/

namespace Sys2Proof.Machine

/-- `Execute(operation, operand, ea)` of spec/40_sequencer_and_modes.md R110, as one function of the operation. -/
def effect (op : Operation) (v : Byte) (ea : Addr) (s : State) : State :=
  match op with
  | .lda => s.loadA v
  | .ldx => s.loadX v
  | .ldy => s.loadY v
  | .sta => s.writeByte ea s.a
  | .stx => s.writeByte ea s.x
  | .sty => s.writeByte ea s.y
  | .adc => s.addToA v
  | .cmp => s.compareWith s.a v
  | .cpx => s.compareWith s.x v
  | .cpy => s.compareWith s.y v
  | .inx => s.loadX (s.x + 1)
  | .dex => s.loadX (s.x - 1)
  | .tax => s.loadX s.a
  | .bne => if getFlag .z s.p then s else s.setPc (s.pc + sext16 v)
  | .jmp => s.setPc ea
  | .brk => s.setRun .halted

/-- Every instruction answers the next state that its operation makes of its operand value and effective address. -/
theorem exec_eq_effect (i : Instr) (s : State) :
    exec i s = .next (effect i.operation ((operandValue i s).getD 0) ((effectiveAddress i s).getD 0) s) := by
  cases i <;> rfl

/-- An operation that wants a value gets one, in every mode it supports. -/
theorem operandValue_isSome {i : Instr} (h : Operation.wantsValue i.operation = true) (s : State) :
    ∃ v, operandValue i s = some v := by
  cases i <;> first | exact ⟨_, rfl⟩ | simp [Instr.operation, Operation.wantsValue] at h

/-- A store and a jump get an effective address, in every mode they support. -/
theorem effectiveAddress_isSome {i : Instr}
    (h : i.operation = .sta ∨ i.operation = .stx ∨ i.operation = .sty ∨ i.operation = .jmp) (s : State) :
    ∃ ea, effectiveAddress i s = some ea := by
  cases i <;> first | exact ⟨_, rfl⟩ | simp [Instr.operation] at h

/-- In a memory mode the operand value is the byte at the effective address. -/
theorem operandValue_of_ea {i : Instr} {s : State} {ea : Addr} (h : effectiveAddress i s = some ea)
    (hw : Operation.wantsValue i.operation = true) : operandValue i s = some (s.readByte ea) := by
  cases i <;> first | (cases h <;> rfl) | simp [Instr.operation, Operation.wantsValue] at hw

/-- An instruction that is not a control transfer, a store or BRK leaves PC, RUN and memory alone: what an operation can
change, for each field. -/
theorem effect_frame (op : Operation) (v : Byte) (ea : Addr) (s : State) :
    (effect op v ea s).sp = s.sp ∧ (effect op v ea s).faultKind = s.faultKind ∧
      (effect op v ea s).faultOpcode = s.faultOpcode ∧ (effect op v ea s).faultAddr = s.faultAddr ∧
      (op ≠ .brk → (effect op v ea s).run = s.run) ∧
      (op ≠ .bne → op ≠ .jmp → (effect op v ea s).pc = s.pc) ∧
      (op ≠ .sta → op ≠ .stx → op ≠ .sty → (effect op v ea s).mem = s.mem) := by
  cases op
  case bne =>
    simp only [effect]
    split <;> simp
  all_goals simp [effect]

/-- Every operation keeps the canonical form of memory. -/
theorem effect_wf (op : Operation) (v : Byte) (ea : Addr) {s : State} (h : s.mem.wf = true) :
    (effect op v ea s).mem.wf = true := by
  cases op <;> simp only [effect] <;> first | exact h | exact State.writeByte_wf h _ _ | (split <;> exact h)

/-- No operation writes the reserved bits 5 to 2 of P. -/
theorem effect_reserved (op : Operation) (v : Byte) (ea : Addr) (s : State) (k : Nat) (h2 : 2 ≤ k) (h5 : k ≤ 5) :
    (effect op v ea s).p.getLsbD k = s.p.getLsbD k := by
  have hk : k < 8 := by omega
  have h : k ≠ 0 ∧ k ≠ 1 ∧ k ≠ 6 ∧ k ≠ 7 := by omega
  cases op <;> simp only [effect] <;>
    first
      | (simp [getLsbD_setZN _ _ _ hk, getLsbD_adcFlags _ _ _ _ hk, getLsbD_compareFlags _ _ _ _ hk, h])
      | (split <;> simp)

end Sys2Proof.Machine
end

