-- ==== Sys2Proof/Laws/Step.lean ====
section
/-! SUPPORT. What the fetch and decode part of a step can yield, and what a step can do. -/

namespace Sys2Proof.Machine

theorem State.skip_skip (s : State) (j k : Nat) : (s.skip j).skip k = s.skip (j + k) := by
  simp only [State.skip, State.setPc, BitVec.ofNat_add, BitVec.add_assoc]

theorem fetch8_eq (s : State) : fetch8 s = (s.readByte s.pc, s.skip 1) := rfl

theorem State.readByte_skip (s : State) (k : Nat) (a : Addr) : (s.skip k).readByte a = s.readByte a := rfl

theorem fetchOperandBytes_zero (s : State) : fetchOperandBytes 0 s = (0, 0, s.skip 0) := by
  simp [fetchOperandBytes, State.skip, State.setPc]

theorem fetchOperandBytes_one (s : State) : fetchOperandBytes 1 s = (s.readByte s.pc, 0, s.skip 1) := rfl

theorem fetchOperandBytes_two (s : State) :
    fetchOperandBytes 2 s = (s.readByte s.pc, s.readByte (s.pc + 1), s.skip 2) := by
  rw [← s.skip_skip 1 1]
  rfl

/-- Fetching operand bytes consumes exactly as many bytes as the mode has (R115). -/
theorem fetchOperandBytes_eq (m : Mode) (s : State) :
    ∃ b1 b2 rest, fetchOperandBytes m.operandBytes s = (b1, b2, s.skip m.operandBytes) ∧
      takeOperandBytes m.operandBytes [s.readByte s.pc, s.readByte (s.pc + 1)] = some (b1, b2, rest) := by
  cases m <;> first
    | exact ⟨_, _, _, fetchOperandBytes_zero s, rfl⟩
    | exact ⟨_, _, _, fetchOperandBytes_one s, rfl⟩
    | exact ⟨_, _, _, fetchOperandBytes_two s, rfl⟩

/-- `fetchInstr` with the opcode fetch carried out. -/
theorem fetchInstr_eq (s : State) :
    fetchInstr s =
      if s.readByte s.pc = Config.haltOpcode then .instr .brk (s.skip 1)
      else
        match opcodeTable (s.readByte s.pc) with
        | none => .fault .undefinedOpcode (s.readByte s.pc) s.pc (s.skip 1)
        | some (m, op) =>
          match Instr.ofParts op (Operand.ofBytes m (fetchOperandBytes m.operandBytes (s.skip 1)).1
              (fetchOperandBytes m.operandBytes (s.skip 1)).2.1) with
          | none => .fault .resolverModeMismatch (s.readByte s.pc) s.pc (s.skip 1)
          | some i => .instr i (fetchOperandBytes m.operandBytes (s.skip 1)).2.2 := rfl

/-- What the fetch and decode part of a step yields: the UndefinedOpcode fault, for an opcode byte with no table entry, or
the instruction the decoder reads from the bytes at PC, in the state past it. -/
theorem fetchInstr_cases (s : State) :
    (opcodeTable (s.readByte s.pc) = none ∧
      fetchInstr s = .fault .undefinedOpcode (s.readByte s.pc) s.pc (s.skip 1)) ∨
    ∃ i rest, opcodeTable (s.readByte s.pc) = some (i.mode, i.operation) ∧
      decode (bytesAtPc s) = .ok i rest ∧ fetchInstr s = .instr i (s.skip i.length) := by
  by_cases h0 : s.readByte s.pc = Config.haltOpcode
  · refine .inr ⟨.brk, [s.readByte (s.pc + 1), s.readByte (s.pc + 2)], ?_, ?_, ?_⟩
    · rw [h0]; rfl
    · simp only [bytesAtPc, h0]; rfl
    · rw [fetchInstr_eq, if_pos h0]
      rfl
  · cases ht : opcodeTable (s.readByte s.pc) with
    | none => exact .inl ⟨rfl, by rw [fetchInstr_eq, if_neg h0, ht]⟩
    | some e =>
      obtain ⟨m, op⟩ := e
      obtain ⟨b1, b2, rest, hf, hb⟩ := fetchOperandBytes_eq m (s.skip 1)
      obtain ⟨i, hi⟩ := ofParts_opcodeTable ht b1 b2
      obtain ⟨hop, ho⟩ := Instr.ofParts_some hi
      have hm : i.mode = m := by rw [Instr.mode, ho, Operand.ofBytes_mode]
      have hb' : takeOperandBytes m.operandBytes [s.readByte (s.pc + 1), s.readByte (s.pc + 2)] =
          some (b1, b2, rest) := by
        rw [← hb, s.readByte_skip, s.readByte_skip]
        simp only [State.skip_pc, BitVec.add_assoc]
        rfl
      refine .inr ⟨i, rest, by rw [hm, hop], ?_, ?_⟩
      · simp only [bytesAtPc, decode, ht, hb', hi]
      · rw [fetchInstr_eq, if_neg h0, ht]
        simp only [hf, hi, State.skip_skip, Instr.length, hm, Mode.length]

/-- What a step can do: nothing in Halted or Faulted; otherwise enter the UndefinedOpcode fault, or execute the decoded
instruction past its bytes. -/
theorem step_cases (s : State) :
    (s.run ≠ .running ∧ step s = .next s) ∨
    (s.run = .running ∧ opcodeTable (s.readByte s.pc) = none ∧
      step s = .next ((s.skip 1).raiseFault .undefinedOpcode (s.readByte s.pc) s.pc)) ∨
    (s.run = .running ∧ ∃ i rest, opcodeTable (s.readByte s.pc) = some (i.mode, i.operation) ∧
      decode (bytesAtPc s) = .ok i rest ∧ fetchInstr s = .instr i (s.skip i.length) ∧
      step s = exec i (s.skip i.length)) := by
  cases hr : s.run with
  | halted => exact .inl ⟨by simp, by simp only [step, hr]⟩
  | faulted => exact .inl ⟨by simp, by simp only [step, hr]⟩
  | running =>
    rcases fetchInstr_cases s with ⟨ht, hf⟩ | ⟨i, rest, ht, hd, hf⟩
    · exact .inr (.inl ⟨rfl, ht, by simp only [step, hr, hf, runFetched]⟩)
    · exact .inr (.inr ⟨rfl, i, rest, ht, hd, hf, by simp only [step, hr, hf, runFetched]⟩)

theorem State.stepped_of_next {s t : State} (h : step s = .next t) : s.stepped = t := by
  simp only [State.stepped, h]

end Sys2Proof.Machine
end

