-- ==== Sys2Proof/Laws/Access.lean ====
section
/-! SUPPORT. The fetch seen from the table entry of the opcode byte, and what the access record of a step says. -/

namespace Sys2Proof.Machine

/-- A fetch at a byte the table gives a mode and an operation. -/
theorem fetch_of_table {s : State} {m : Mode} {op : Operation} (h : opcodeTable (s.readByte s.pc) = some (m, op)) :
    ∃ i rest, i.mode = m ∧ i.operation = op ∧ decode (bytesAtPc s) = .ok i rest ∧
      fetchInstr s = .instr i (s.skip m.length) := by
  rcases fetchInstr_cases s with ⟨hn, -⟩ | ⟨i, rest, hs, hd, hf⟩
  · rw [h] at hn; cases hn
  · rw [h, Option.some.injEq, Prod.mk.injEq] at hs
    obtain ⟨rfl, rfl⟩ := hs
    exact ⟨i, rest, rfl, rfl, hd, hf⟩

/-- The operand of a fetched instruction is made of the bytes after the opcode. -/
theorem fetch_operand {s : State} {m : Mode} {op : Operation} (h : opcodeTable (s.readByte s.pc) = some (m, op)) :
    ∃ i, i.operation = op ∧ i.operand = Operand.ofBytes m (s.readByte (s.pc + 1)) (s.readByte (s.pc + 2)) ∧
      fetchInstr s = .instr i (s.skip m.length) := by
  obtain ⟨i, rest, hm, ho, hd, hf⟩ := fetch_of_table h
  refine ⟨i, ho, ?_, hf⟩
  simp only [bytesAtPc, decode, h] at hd
  cases m <;> simp only [Mode.operandBytes, takeOperandBytes] at hd <;>
    (split at hd
     · cases hd
     · rename_i j hj
       cases hd
       exact (Instr.ofParts_some hj).2)

/-- The read record of a step that fetches an instruction. -/
theorem stepReads_of_fetch {s t : State} {i : Instr} (hr : s.run = .running) (hf : fetchInstr s = .instr i t) :
    stepReads s = instrByteAddrs s.pc i.length ++ Operand.pointerReads i.operand t ++ operandReads i t := by
  simp only [stepReads, hr, hf]

/-- The write record of a step that fetches an instruction. -/
theorem stepWrites_of_fetch {s t : State} {i : Instr} (hr : s.run = .running) (hf : fetchInstr s = .instr i t) :
    stepWrites s = instrWrites i t := by
  simp only [stepWrites, hr, hf]

/-- A byte outside a list of writes reads as before. -/
theorem Memory.read_writeAll_other (m : Memory) (ws : List (Addr × Byte)) (a : Addr) (h : a ∉ ws.map Prod.fst) :
    (m.writeAll ws).read a.toNat = m.read a.toNat := by
  induction ws generalizing m with
  | nil => rfl
  | cons w ws ih =>
    simp only [List.map_cons, List.mem_cons, not_or] at h
    exact (ih _ h.2).trans (Memory.read_write_other (fun e => h.1 (BitVec.eq_of_toNat_eq e)) _)

/-- Memory after an operation is memory before it with the recorded write made. -/
theorem effect_mem (i : Instr) (s : State) :
    (effect i.operation ((operandValue i s).getD 0) ((effectiveAddress i s).getD 0) s).mem =
      s.mem.writeAll (instrWrites i s) := by
  by_cases h : i.operation = .sta ∨ i.operation = .stx ∨ i.operation = .sty
  · obtain ⟨ea, he⟩ := effectiveAddress_isSome (i := i) (by tauto) s
    rcases h with h | h | h <;> rw [instrWrites, h, he] <;> rfl
  · have : storedByte i.operation s = none := by cases hh : i.operation <;> simp_all [storedByte]
    rw [instrWrites, this]
    push Not at h
    exact (effect_frame _ _ _ _).2.2.2.2.2.2 h.1 h.2.1 h.2.2

/-- BRK is the operation of the byte 0x00 alone. -/
theorem brk_iff_zero {b : Byte} {m : Mode} {op : Operation} (h : opcodeTable b = some (m, op)) : op = .brk ↔ b = 0 := by
  have := opcodeTable_eq_some.1 h
  have hall : ∀ e ∈ catalog, e.operation = .brk ↔ e.opcode = 0 := by decide
  exact hall _ this

/-- A step is always a next state. -/
theorem step_eq_stepped (s : State) : step s = .next s.stepped := by
  obtain ⟨t, h⟩ : ∃ t, step s = .next t := by
    rcases step_cases s with ⟨hr, h⟩ | ⟨hr, hn, h⟩ | ⟨hr, i, rest, ht, -, -, h⟩
    · exact ⟨_, h⟩
    · exact ⟨_, h⟩
    · exact ⟨_, h.trans (exec_eq_effect _ _)⟩
  rw [State.stepped_of_next h, h]

/-- More steps, one after the other. -/
theorem State.stepMany_add (s : State) (n m : Nat) : s.stepMany (n + m) = (s.stepMany n).stepMany m := by
  induction n generalizing s with
  | zero => rw [Nat.zero_add]; rfl
  | succ n ih => rw [Nat.succ_add]; exact ih _

end Sys2Proof.Machine
end

