-- ==== Sys2Proof/Laws/PerInstr.lean ====
section
/-! SUPPORT. Statements about every instruction as syntax, one lemma for each constructor. -/

namespace Sys2Proof.Laws.Encoding

/-- The decoder's table gives an instruction's opcode byte back its mode and operation (spec/30_encoding.md R90 against
R91), and the instruction has as many bytes as its mode says (R80). -/
def Statement (i : Instr) : Prop :=
  opcodeTable i.opcode = some (i.mode, i.operation) ∧ (encode i).length = i.length

theorem ldaImm (imm : Byte) : Statement (.ldaImm imm) := ⟨rfl, rfl⟩
theorem ldaZp (zp : Byte) : Statement (.ldaZp zp) := ⟨rfl, rfl⟩
theorem ldaZpx (zp : Byte) : Statement (.ldaZpx zp) := ⟨rfl, rfl⟩
theorem ldaAbs (addr : Addr) : Statement (.ldaAbs addr) := ⟨rfl, rfl⟩
theorem ldaAbsx (addr : Addr) : Statement (.ldaAbsx addr) := ⟨rfl, rfl⟩
theorem ldaAbsy (addr : Addr) : Statement (.ldaAbsy addr) := ⟨rfl, rfl⟩
theorem ldaIndx (zp : Byte) : Statement (.ldaIndx zp) := ⟨rfl, rfl⟩
theorem ldaIndy (zp : Byte) : Statement (.ldaIndy zp) := ⟨rfl, rfl⟩
theorem ldxImm (imm : Byte) : Statement (.ldxImm imm) := ⟨rfl, rfl⟩
theorem ldxZp (zp : Byte) : Statement (.ldxZp zp) := ⟨rfl, rfl⟩
theorem ldxZpy (zp : Byte) : Statement (.ldxZpy zp) := ⟨rfl, rfl⟩
theorem ldxAbs (addr : Addr) : Statement (.ldxAbs addr) := ⟨rfl, rfl⟩
theorem ldxAbsy (addr : Addr) : Statement (.ldxAbsy addr) := ⟨rfl, rfl⟩
theorem ldyImm (imm : Byte) : Statement (.ldyImm imm) := ⟨rfl, rfl⟩
theorem ldyZp (zp : Byte) : Statement (.ldyZp zp) := ⟨rfl, rfl⟩
theorem ldyZpx (zp : Byte) : Statement (.ldyZpx zp) := ⟨rfl, rfl⟩
theorem ldyAbs (addr : Addr) : Statement (.ldyAbs addr) := ⟨rfl, rfl⟩
theorem ldyAbsx (addr : Addr) : Statement (.ldyAbsx addr) := ⟨rfl, rfl⟩
theorem staZp (zp : Byte) : Statement (.staZp zp) := ⟨rfl, rfl⟩
theorem staZpx (zp : Byte) : Statement (.staZpx zp) := ⟨rfl, rfl⟩
theorem staAbs (addr : Addr) : Statement (.staAbs addr) := ⟨rfl, rfl⟩
theorem staAbsx (addr : Addr) : Statement (.staAbsx addr) := ⟨rfl, rfl⟩
theorem staAbsy (addr : Addr) : Statement (.staAbsy addr) := ⟨rfl, rfl⟩
theorem staIndx (zp : Byte) : Statement (.staIndx zp) := ⟨rfl, rfl⟩
theorem staIndy (zp : Byte) : Statement (.staIndy zp) := ⟨rfl, rfl⟩
theorem stxZp (zp : Byte) : Statement (.stxZp zp) := ⟨rfl, rfl⟩
theorem stxZpy (zp : Byte) : Statement (.stxZpy zp) := ⟨rfl, rfl⟩
theorem stxAbs (addr : Addr) : Statement (.stxAbs addr) := ⟨rfl, rfl⟩
theorem styZp (zp : Byte) : Statement (.styZp zp) := ⟨rfl, rfl⟩
theorem styZpx (zp : Byte) : Statement (.styZpx zp) := ⟨rfl, rfl⟩
theorem styAbs (addr : Addr) : Statement (.styAbs addr) := ⟨rfl, rfl⟩
theorem adcImm (imm : Byte) : Statement (.adcImm imm) := ⟨rfl, rfl⟩
theorem adcZp (zp : Byte) : Statement (.adcZp zp) := ⟨rfl, rfl⟩
theorem adcZpx (zp : Byte) : Statement (.adcZpx zp) := ⟨rfl, rfl⟩
theorem adcAbs (addr : Addr) : Statement (.adcAbs addr) := ⟨rfl, rfl⟩
theorem adcAbsx (addr : Addr) : Statement (.adcAbsx addr) := ⟨rfl, rfl⟩
theorem adcAbsy (addr : Addr) : Statement (.adcAbsy addr) := ⟨rfl, rfl⟩
theorem adcIndx (zp : Byte) : Statement (.adcIndx zp) := ⟨rfl, rfl⟩
theorem adcIndy (zp : Byte) : Statement (.adcIndy zp) := ⟨rfl, rfl⟩
theorem cmpImm (imm : Byte) : Statement (.cmpImm imm) := ⟨rfl, rfl⟩
theorem cmpZp (zp : Byte) : Statement (.cmpZp zp) := ⟨rfl, rfl⟩
theorem cmpZpx (zp : Byte) : Statement (.cmpZpx zp) := ⟨rfl, rfl⟩
theorem cmpAbs (addr : Addr) : Statement (.cmpAbs addr) := ⟨rfl, rfl⟩
theorem cmpAbsx (addr : Addr) : Statement (.cmpAbsx addr) := ⟨rfl, rfl⟩
theorem cmpAbsy (addr : Addr) : Statement (.cmpAbsy addr) := ⟨rfl, rfl⟩
theorem cmpIndx (zp : Byte) : Statement (.cmpIndx zp) := ⟨rfl, rfl⟩
theorem cmpIndy (zp : Byte) : Statement (.cmpIndy zp) := ⟨rfl, rfl⟩
theorem cpxImm (imm : Byte) : Statement (.cpxImm imm) := ⟨rfl, rfl⟩
theorem cpxZp (zp : Byte) : Statement (.cpxZp zp) := ⟨rfl, rfl⟩
theorem cpxAbs (addr : Addr) : Statement (.cpxAbs addr) := ⟨rfl, rfl⟩
theorem cpyImm (imm : Byte) : Statement (.cpyImm imm) := ⟨rfl, rfl⟩
theorem cpyZp (zp : Byte) : Statement (.cpyZp zp) := ⟨rfl, rfl⟩
theorem cpyAbs (addr : Addr) : Statement (.cpyAbs addr) := ⟨rfl, rfl⟩
theorem inx : Statement .inx := ⟨rfl, rfl⟩
theorem dex : Statement .dex := ⟨rfl, rfl⟩
theorem tax : Statement .tax := ⟨rfl, rfl⟩
theorem bne (disp : Byte) : Statement (.bne disp) := ⟨rfl, rfl⟩
theorem jmpAbs (addr : Addr) : Statement (.jmpAbs addr) := ⟨rfl, rfl⟩
theorem jmpInd (ptr : Addr) : Statement (.jmpInd ptr) := ⟨rfl, rfl⟩
theorem brk : Statement .brk := ⟨rfl, rfl⟩

end Sys2Proof.Laws.Encoding
end

