-- ==== Sys2Proof/Tests/Slice0.lean ====
section
/-! SUPPORT. Small tests on fixed values. Expected results are taken from the spec: the opcode map (spec/30_encoding.md
R82, R83, R91), the vectors of spec/95_test_vectors.md (named in each docstring) and the rules cited; none was computed
with the model. Then, for each statement with hypotheses, a witness that meets them all. -/

namespace Sys2Proof.Tests
open Sys2Proof.Machine

/-! ## The states the vectors start from -/

/-- Memory with some bytes in it. -/
def memWith (cells : List (Nat × Byte)) : Memory :=
  cells.foldl (fun m c => m.write c.1 c.2) []

/-- The start state of spec/95_test_vectors.md section 0: A, X, Y and P as given, PC 0x0600, the instruction bytes
there and some further memory bytes. -/
def start (a x y p : Byte) (code : List Byte) (cells : List (Nat × Byte)) : State :=
  { State.resetWith 0x0600 0x30 with
    a := a, x := x, y := y, p := p
    mem := memWith (((List.range code.length).map (fun n => 0x0600 + n)).zip code ++ cells) }

/-- A and P after a step. -/
def aAndP (s : State) : Byte × Byte := ((s.stepped).a, (s.stepped).p)
/-- X and P after a step. -/
def xAndP (s : State) : Byte × Byte := ((s.stepped).x, (s.stepped).p)
/-- Y and P after a step. -/
def yAndP (s : State) : Byte × Byte := ((s.stepped).y, (s.stepped).p)
/-- PC and P after a step. -/
def pcAndP (s : State) : Addr × Byte := ((s.stepped).pc, (s.stepped).p)
/-- A byte of memory and P after a step. -/
def byteAndP (s : State) (a : Addr) : Byte × Byte := ((s.stepped).readByte a, (s.stepped).p)

/-! ## Well-formedness: each check refuses an ill-formed term -/

/-- R90: STA has no immediate mode. -/
theorem test_wellFormed_refuses_sta_imm : wellFormedPair .sta (.imm 0x00) = false := by decide
/-- R90: JMP is the one operation with the indirect mode. -/
theorem test_wellFormed_refuses_lda_ind : wellFormedPair .lda (.ind 0x1234) = false := by decide
/-- R130: such a pair stands for no instruction. -/
theorem test_ofParts_refuses_sta_imm : Instr.ofParts .sta (.imm 0x00) = none := by decide
/-- R90: LDA has an immediate mode. -/
theorem test_wellFormed_takes_lda_imm : (Instr.ldaImm 0x10).wellFormed = true := by decide
/-- R225: two entries that claim one byte. -/
theorem test_catalogDistinct_refuses_collision :
    catalogDistinct [⟨0xA9, .imm, .lda⟩, ⟨0xE8, .imp, .inx⟩, ⟨0xA9, .zp, .lda⟩] = false := by decide
/-- R90: an entry whose operation has no such mode. -/
theorem test_catalogModesSupported_refuses_stx_zpx : catalogModesSupported [⟨0x96, .zpx, .stx⟩] = false := by decide
/-- R88: either defect makes a catalog ill formed. -/
theorem test_catalogWellFormed_refuses : catalogWellFormed [⟨0xA9, .imm, .lda⟩, ⟨0xA9, .imm, .lda⟩] = false ∧
    catalogWellFormed [⟨0xE8, .imm, .inx⟩] = false := by decide
/-- R88, R91: the machine's catalog passes. -/
theorem test_catalogWellFormed_takes_catalog : catalogWellFormed catalog = true := by decide
/-- R34: an unsorted list, a listed zero and an address past 0xFFFF are not canonical. -/
theorem test_memory_wf_refuses : Memory.wf [(2, 0x01), (1, 0x01)] = false ∧ Memory.wf [(1, 0x00)] = false ∧
    Memory.wf [(65536, 0x01)] = false ∧ Memory.wf [(65535, 0x01)] = true := by decide

/-! ## Decoding: every constructor from bytes written out from R82, R83 and R91 -/
theorem test_decode_lda :
    decode [0xA1, 0x80] = .ok (.ldaIndx 0x80) [] ∧
    decode [0xA5, 0x80] = .ok (.ldaZp 0x80) [] ∧
    decode [0xA9, 0x80] = .ok (.ldaImm 0x80) [] ∧
    decode [0xAD, 0x34, 0x12] = .ok (.ldaAbs 0x1234) [] ∧
    decode [0xB1, 0x80] = .ok (.ldaIndy 0x80) [] ∧
    decode [0xB5, 0x80] = .ok (.ldaZpx 0x80) [] ∧
    decode [0xB9, 0x34, 0x12] = .ok (.ldaAbsy 0x1234) [] ∧
    decode [0xBD, 0x34, 0x12] = .ok (.ldaAbsx 0x1234) [] := by decide
theorem test_decode_ldx :
    decode [0xA2, 0x80] = .ok (.ldxImm 0x80) [] ∧
    decode [0xA6, 0x80] = .ok (.ldxZp 0x80) [] ∧
    decode [0xAE, 0x34, 0x12] = .ok (.ldxAbs 0x1234) [] ∧
    decode [0xB6, 0x80] = .ok (.ldxZpy 0x80) [] ∧
    decode [0xBE, 0x34, 0x12] = .ok (.ldxAbsy 0x1234) [] := by decide
theorem test_decode_ldy :
    decode [0xA0, 0x80] = .ok (.ldyImm 0x80) [] ∧
    decode [0xA4, 0x80] = .ok (.ldyZp 0x80) [] ∧
    decode [0xAC, 0x34, 0x12] = .ok (.ldyAbs 0x1234) [] ∧
    decode [0xB4, 0x80] = .ok (.ldyZpx 0x80) [] ∧
    decode [0xBC, 0x34, 0x12] = .ok (.ldyAbsx 0x1234) [] := by decide
theorem test_decode_sta :
    decode [0x81, 0x80] = .ok (.staIndx 0x80) [] ∧
    decode [0x85, 0x80] = .ok (.staZp 0x80) [] ∧
    decode [0x8D, 0x34, 0x12] = .ok (.staAbs 0x1234) [] ∧
    decode [0x91, 0x80] = .ok (.staIndy 0x80) [] ∧
    decode [0x95, 0x80] = .ok (.staZpx 0x80) [] ∧
    decode [0x99, 0x34, 0x12] = .ok (.staAbsy 0x1234) [] ∧
    decode [0x9D, 0x34, 0x12] = .ok (.staAbsx 0x1234) [] := by decide
theorem test_decode_stx :
    decode [0x86, 0x80] = .ok (.stxZp 0x80) [] ∧
    decode [0x8E, 0x34, 0x12] = .ok (.stxAbs 0x1234) [] ∧
    decode [0x96, 0x80] = .ok (.stxZpy 0x80) [] := by decide
theorem test_decode_sty :
    decode [0x84, 0x80] = .ok (.styZp 0x80) [] ∧
    decode [0x8C, 0x34, 0x12] = .ok (.styAbs 0x1234) [] ∧
    decode [0x94, 0x80] = .ok (.styZpx 0x80) [] := by decide
theorem test_decode_adc :
    decode [0x61, 0x80] = .ok (.adcIndx 0x80) [] ∧
    decode [0x65, 0x80] = .ok (.adcZp 0x80) [] ∧
    decode [0x69, 0x80] = .ok (.adcImm 0x80) [] ∧
    decode [0x6D, 0x34, 0x12] = .ok (.adcAbs 0x1234) [] ∧
    decode [0x71, 0x80] = .ok (.adcIndy 0x80) [] ∧
    decode [0x75, 0x80] = .ok (.adcZpx 0x80) [] ∧
    decode [0x79, 0x34, 0x12] = .ok (.adcAbsy 0x1234) [] ∧
    decode [0x7D, 0x34, 0x12] = .ok (.adcAbsx 0x1234) [] := by decide
theorem test_decode_cmp :
    decode [0xC1, 0x80] = .ok (.cmpIndx 0x80) [] ∧
    decode [0xC5, 0x80] = .ok (.cmpZp 0x80) [] ∧
    decode [0xC9, 0x80] = .ok (.cmpImm 0x80) [] ∧
    decode [0xCD, 0x34, 0x12] = .ok (.cmpAbs 0x1234) [] ∧
    decode [0xD1, 0x80] = .ok (.cmpIndy 0x80) [] ∧
    decode [0xD5, 0x80] = .ok (.cmpZpx 0x80) [] ∧
    decode [0xD9, 0x34, 0x12] = .ok (.cmpAbsy 0x1234) [] ∧
    decode [0xDD, 0x34, 0x12] = .ok (.cmpAbsx 0x1234) [] := by decide
theorem test_decode_cpx :
    decode [0xE0, 0x80] = .ok (.cpxImm 0x80) [] ∧
    decode [0xE4, 0x80] = .ok (.cpxZp 0x80) [] ∧
    decode [0xEC, 0x34, 0x12] = .ok (.cpxAbs 0x1234) [] := by decide
theorem test_decode_cpy :
    decode [0xC0, 0x80] = .ok (.cpyImm 0x80) [] ∧
    decode [0xC4, 0x80] = .ok (.cpyZp 0x80) [] ∧
    decode [0xCC, 0x34, 0x12] = .ok (.cpyAbs 0x1234) [] := by decide
theorem test_decode_inx :
    decode [0xE8] = .ok .inx [] := by decide
theorem test_decode_dex :
    decode [0xCA] = .ok .dex [] := by decide
theorem test_decode_tax :
    decode [0xAA] = .ok .tax [] := by decide
theorem test_decode_bne :
    decode [0xD0, 0x80] = .ok (.bne 0x80) [] := by decide
theorem test_decode_jmp :
    decode [0x4C, 0x34, 0x12] = .ok (.jmpAbs 0x1234) [] ∧
    decode [0x6C, 0x34, 0x12] = .ok (.jmpInd 0x1234) [] := by decide
theorem test_decode_brk :
    decode [0x00] = .ok .brk [] := by decide
/-- R93: undefined bytes, the 6502's NOP and SBC among them, are rejected by name. -/
theorem test_decode_undefined : decode [0xEA] = .error (.undefinedOpcode 0xEA) ∧
    decode [0xE9, 0x01] = .error (.undefinedOpcode 0xE9) ∧ decode [0x01] = .error (.undefinedOpcode 0x01) ∧
    decode [0xFF] = .error (.undefinedOpcode 0xFF) := by decide
/-- Too few bytes are rejected by name, and the bytes after an instruction are left. -/
theorem test_decode_edges : decode [] = .error .noBytes ∧ decode [0xAD, 0x34] = .error (.truncated 0xAD) ∧
    decode [0xA9, 0x10, 0xE8] = .ok (.ldaImm 0x10) [0xE8] := by decide
/-- R83, R96: `LDA $1234` is AD 34 12. -/
theorem test_encode_lda_abs : encode (.ldaAbs 0x1234) = [0xAD, 0x34, 0x12] := by decide
/-- The table numbers the first byte's bits 7 to 0; bits above the row's width are 0. -/
theorem test_decodeTableWord : decodeTableWord 24 0x1234AD = some (.ldaAbs 0x1234) ∧
    decodeTableWord 8 0xFFFFAD = some (.ldaAbs 0x0000) ∧ decodeTableWord 16 0x80A9 = some (.ldaImm 0x80) ∧
    decodeTableWord 8 0xE8 = some .inx ∧ decodeTableWord 8 0xEA = none := by decide
/-- A word placed at reset runs at the next step. -/
theorem test_withFetchWord_runs : (State.reset.withFetchWord 16 0x80A9).stepped.a = 0x80 := by decide
/-- A word placed at the top of memory wraps: byte 1 lies at 0x0000 (R58). -/
theorem test_withFetchWord_wraps :
    ((State.resetWith 0xFFFF 0x30).withFetchWord 24 0x1234AD).readByte 0x0000 = 0x34 := by decide

/-! ## One step of each instruction: the vectors of spec/95_test_vectors.md section 3 -/
/-- L1: `LDA #$00`. -/
theorem test_ldaImm_L1 : aAndP (start 0x55 0x00 0x00 0xB0 [0xA9, 0x00] []) = (0x00, 0x32) := by decide
/-- L3: `LDA #$7F`. -/
theorem test_ldaImm_L3 : aAndP (start 0x00 0x00 0x00 0xFF [0xA9, 0x7F] []) = (0x7F, 0x7D) := by decide
/-- L5: `LDA $10`. -/
theorem test_ldaZp_L5 : aAndP (start 0x00 0x00 0x00 0x30 [0xA5, 0x10] [(0x0010, 0x7F)]) = (0x7F, 0x30) := by decide
/-- L6: `LDA $F0,X`. -/
theorem test_ldaZpx_L6 :
    aAndP (start 0x00 0x20 0x00 0x30 [0xB5, 0xF0] [(0x0010, 0x99), (0x0110, 0x11)]) = (0x99, 0xB0) := by decide
/-- L7: `LDA $1234`. -/
theorem test_ldaAbs_L7 : aAndP (start 0x00 0x00 0x00 0x30 [0xAD, 0x34, 0x12] [(0x1234, 0x01)]) = (0x01, 0x30) := by decide
/-- L8: `LDA $12FF,X`. -/
theorem test_ldaAbsx_L8 :
    aAndP (start 0x00 0x02 0x00 0x30 [0xBD, 0xFF, 0x12] [(0x1301, 0xC3)]) = (0xC3, 0xB0) := by decide
/-- L9: `LDA $FFF0,Y`. -/
theorem test_ldaAbsy_L9 :
    aAndP (start 0x00 0x00 0x20 0x30 [0xB9, 0xF0, 0xFF] [(0x0010, 0x42)]) = (0x42, 0x30) := by decide
/-- L10: `LDA ($FF,X)`. -/
theorem test_ldaIndx_L10 :
    aAndP (start 0x00 0x02 0x00 0x30 [0xA1, 0xFF] [(0x0001, 0x00), (0x0002, 0x03), (0x0300, 0x5A), (0x0101, 0x77)]) =
      (0x5A, 0x30) := by decide
/-- L11: `LDA ($10),Y`. -/
theorem test_ldaIndy_L11 :
    aAndP (start 0x00 0x00 0x20 0x30 [0xB1, 0x10] [(0x0010, 0xF0), (0x0011, 0x02), (0x0310, 0x00)]) =
      (0x00, 0x32) := by decide
/-- L12: `LDX #$05`. -/
theorem test_ldxImm_L12 : xAndP (start 0x00 0x00 0x00 0x30 [0xA2, 0x05] []) = (0x05, 0x30) := by decide
/-- L13: `LDX $10`. -/
theorem test_ldxZp_L13 : xAndP (start 0x00 0x00 0x00 0x30 [0xA6, 0x10] [(0x0010, 0x80)]) = (0x80, 0xB0) := by decide
/-- L14: `LDX $FF,Y`. -/
theorem test_ldxZpy_L14 :
    xAndP (start 0x00 0x00 0x01 0x30 [0xB6, 0xFF] [(0x0000, 0x33), (0x0100, 0x44)]) = (0x33, 0x30) := by decide
/-- L15: `LDX $0200`. -/
theorem test_ldxAbs_L15 :
    xAndP (start 0x00 0x00 0x00 0x30 [0xAE, 0x00, 0x02] [(0x0200, 0x00)]) = (0x00, 0x32) := by decide
/-- L16: `LDX $FFFF,Y`. -/
theorem test_ldxAbsy_L16 :
    xAndP (start 0x00 0x00 0x01 0x30 [0xBE, 0xFF, 0xFF] [(0x0000, 0xEE)]) = (0xEE, 0xB0) := by decide
/-- L17: `LDY #$FF`. -/
theorem test_ldyImm_L17 : yAndP (start 0x00 0x00 0x00 0x30 [0xA0, 0xFF] []) = (0xFF, 0xB0) := by decide
/-- L18: `LDY $10`. -/
theorem test_ldyZp_L18 : yAndP (start 0x00 0x00 0x00 0x30 [0xA4, 0x10] [(0x0010, 0x01)]) = (0x01, 0x30) := by decide
/-- L19: `LDY $80,X`. -/
theorem test_ldyZpx_L19 : yAndP (start 0x00 0x80 0x00 0x30 [0xB4, 0x80] [(0x0000, 0x12)]) = (0x12, 0x30) := by decide
/-- L20: `LDY $0400`. -/
theorem test_ldyAbs_L20 :
    yAndP (start 0x00 0x00 0x00 0x30 [0xAC, 0x00, 0x04] [(0x0400, 0x10)]) = (0x10, 0x30) := by decide
/-- L21: `LDY $0400,X`. -/
theorem test_ldyAbsx_L21 :
    yAndP (start 0x00 0xFF 0x00 0x30 [0xBC, 0x00, 0x04] [(0x04FF, 0x80)]) = (0x80, 0xB0) := by decide
/-- S1: `STA $10`. -/
theorem test_staZp_S1 : byteAndP (start 0x0F 0x00 0x00 0x30 [0x85, 0x10] []) 0x0010 = (0x0F, 0x30) := by decide
/-- S2: `STA $F0,X`. -/
theorem test_staZpx_S2 : byteAndP (start 0xAB 0x20 0x00 0x30 [0x95, 0xF0] []) 0x0010 = (0xAB, 0x30) := by decide
/-- S3: `STA $0200`. -/
theorem test_staAbs_S3 :
    byteAndP (start 0x00 0x00 0x00 0xB1 [0x8D, 0x00, 0x02] [(0x0200, 0x77)]) 0x0200 = (0x00, 0xB1) := by decide
/-- S4: `STA $0300,X`. -/
theorem test_staAbsx_S4 : byteAndP (start 0x11 0x03 0x00 0x30 [0x9D, 0x00, 0x03] []) 0x0303 = (0x11, 0x30) := by decide
/-- S5: `STA $FFFF,Y`. -/
theorem test_staAbsy_S5 : byteAndP (start 0x22 0x00 0x02 0x30 [0x99, 0xFF, 0xFF] []) 0x0001 = (0x22, 0x30) := by decide
/-- S6: `STA ($20,X)`. -/
theorem test_staIndx_S6 :
    byteAndP (start 0x16 0x02 0x00 0x30 [0x81, 0x20] [(0x0022, 0x01), (0x0023, 0x04)]) 0x0401 =
      (0x16, 0x30) := by decide
/-- S7: `STA ($20),Y`. -/
theorem test_staIndy_S7 :
    byteAndP (start 0x10 0x00 0x00 0x30 [0x91, 0x20] [(0x0020, 0x00), (0x0021, 0x04)]) 0x0400 =
      (0x10, 0x30) := by decide
/-- S8: `STA ($20),Y`. -/
theorem test_staIndy_S8 :
    byteAndP (start 0x10 0x00 0xFF 0x30 [0x91, 0x20] [(0x0020, 0x80), (0x0021, 0xFF)]) 0x007F =
      (0x10, 0x30) := by decide
/-- S10: `STX $10`. -/
theorem test_stxZp_S10 : byteAndP (start 0x00 0x05 0x00 0x30 [0x86, 0x10] []) 0x0010 = (0x05, 0x30) := by decide
/-- S11: `STX $F0,Y`. -/
theorem test_stxZpy_S11 : byteAndP (start 0x00 0x06 0x20 0x30 [0x96, 0xF0] []) 0x0010 = (0x06, 0x30) := by decide
/-- S12: `STX $1234`. -/
theorem test_stxAbs_S12 : byteAndP (start 0x00 0x07 0x00 0x30 [0x8E, 0x34, 0x12] []) 0x1234 = (0x07, 0x30) := by decide
/-- S13: `STY $10`. -/
theorem test_styZp_S13 : byteAndP (start 0x00 0x00 0x08 0x30 [0x84, 0x10] []) 0x0010 = (0x08, 0x30) := by decide
/-- S14: `STY $F0,X`. -/
theorem test_styZpx_S14 : byteAndP (start 0x00 0x20 0xAA 0x30 [0x94, 0xF0] []) 0x0010 = (0xAA, 0x30) := by decide
/-- S15: `STY $1234`. -/
theorem test_styAbs_S15 : byteAndP (start 0x00 0x00 0x09 0x30 [0x8C, 0x34, 0x12] []) 0x1234 = (0x09, 0x30) := by decide
/-- A1: `ADC #$50`. -/
theorem test_adcImm_A1 : aAndP (start 0x50 0x00 0x00 0x30 [0x69, 0x50] []) = (0xA0, 0xF0) := by decide
/-- A3: `ADC #$00`. -/
theorem test_adcImm_A3 : aAndP (start 0x7F 0x00 0x00 0x31 [0x69, 0x00] []) = (0x80, 0xF0) := by decide
/-- A12: `ADC $12`. -/
theorem test_adcZp_A12 : aAndP (start 0xF0 0x00 0x00 0x30 [0x65, 0x12] [(0x0012, 0x20)]) = (0x10, 0x31) := by decide
/-- A13: `ADC $10,X`. -/
theorem test_adcZpx_A13 : aAndP (start 0x01 0x01 0x00 0x31 [0x75, 0x10] [(0x0011, 0x01)]) = (0x03, 0x30) := by decide
/-- A14: `ADC $0200`. -/
theorem test_adcAbs_A14 :
    aAndP (start 0x80 0x00 0x00 0x30 [0x6D, 0x00, 0x02] [(0x0200, 0x80)]) = (0x00, 0x73) := by decide
/-- A15: `ADC $0200,X`. -/
theorem test_adcAbsx_A15 :
    aAndP (start 0x10 0x10 0x00 0x30 [0x7D, 0x00, 0x02] [(0x0210, 0x10)]) = (0x20, 0x30) := by decide
/-- A16: `ADC $0200,Y`. -/
theorem test_adcAbsy_A16 :
    aAndP (start 0x10 0x00 0x01 0x30 [0x79, 0x00, 0x02] [(0x0201, 0xF0)]) = (0x00, 0x33) := by decide
/-- A17: `ADC ($10,X)`. -/
theorem test_adcIndx_A17 :
    aAndP (start 0x02 0x04 0x00 0x30 [0x61, 0x10] [(0x0014, 0x00), (0x0015, 0x05), (0x0500, 0x03)]) =
      (0x05, 0x30) := by decide
/-- A18: `ADC ($10),Y`. -/
theorem test_adcIndy_A18 :
    aAndP (start 0x02 0x00 0x04 0x30 [0x71, 0x10] [(0x0010, 0x00), (0x0011, 0x05), (0x0504, 0x7E)]) =
      (0x80, 0xF0) := by decide
/-- K1: `CMP #$05`. -/
theorem test_cmpImm_K1 : pcAndP (start 0x10 0x00 0x00 0xB0 [0xC9, 0x05] []) = (0x0602, 0x31) := by decide
/-- K3: `CMP #$11`. -/
theorem test_cmpImm_K3 : pcAndP (start 0x10 0x00 0x00 0x31 [0xC9, 0x11] []) = (0x0602, 0xB0) := by decide
/-- K7: `CMP $10`. -/
theorem test_cmpZp_K7 : pcAndP (start 0x00 0x00 0x00 0x30 [0xC5, 0x10] [(0x0010, 0xFF)]) = (0x0602, 0x30) := by decide
/-- K8: `CMP $10,X`. -/
theorem test_cmpZpx_K8 : pcAndP (start 0x80 0x01 0x00 0x30 [0xD5, 0x10] [(0x0011, 0x7F)]) = (0x0602, 0x31) := by decide
/-- K9: `CMP $0200`. -/
theorem test_cmpAbs_K9 :
    pcAndP (start 0xFF 0x00 0x00 0x30 [0xCD, 0x00, 0x02] [(0x0200, 0x00)]) = (0x0603, 0xB1) := by decide
/-- K10: `CMP $0200,X`. -/
theorem test_cmpAbsx_K10 :
    pcAndP (start 0x01 0x02 0x00 0x30 [0xDD, 0x00, 0x02] [(0x0202, 0x01)]) = (0x0603, 0x33) := by decide
/-- K11: `CMP $0200,Y`. -/
theorem test_cmpAbsy_K11 :
    pcAndP (start 0x7F 0x00 0x02 0x30 [0xD9, 0x00, 0x02] [(0x0202, 0x80)]) = (0x0603, 0xB0) := by decide
/-- K12: `CMP ($10,X)`. -/
theorem test_cmpIndx_K12 :
    pcAndP (start 0x03 0x04 0x00 0x30 [0xC1, 0x10] [(0x0014, 0x00), (0x0015, 0x05), (0x0500, 0x03)]) =
      (0x0602, 0x33) := by decide
/-- K13: `CMP ($10),Y`. -/
theorem test_cmpIndy_K13 :
    pcAndP (start 0x03 0x00 0x04 0x30 [0xD1, 0x10] [(0x0010, 0x00), (0x0011, 0x05), (0x0504, 0x04)]) =
      (0x0602, 0xB0) := by decide
/-- K14: `CPX #$05`. -/
theorem test_cpxImm_K14 : pcAndP (start 0x00 0x05 0x00 0x30 [0xE0, 0x05] []) = (0x0602, 0x33) := by decide
/-- K17: `CPX $10`. -/
theorem test_cpxZp_K17 : pcAndP (start 0x00 0x80 0x00 0x30 [0xE4, 0x10] [(0x0010, 0x00)]) = (0x0602, 0xB1) := by decide
/-- K18: `CPX $0200`. -/
theorem test_cpxAbs_K18 :
    pcAndP (start 0x00 0x04 0x00 0x30 [0xEC, 0x00, 0x02] [(0x0200, 0x05)]) = (0x0603, 0xB0) := by decide
/-- K19: `CPY #$10`. -/
theorem test_cpyImm_K19 : pcAndP (start 0x00 0x00 0x0F 0x30 [0xC0, 0x10] []) = (0x0602, 0xB0) := by decide
/-- K20: `CPY $10`. -/
theorem test_cpyZp_K20 : pcAndP (start 0x00 0x00 0x10 0x30 [0xC4, 0x10] [(0x0010, 0x10)]) = (0x0602, 0x33) := by decide
/-- K21: `CPY $0200`. -/
theorem test_cpyAbs_K21 :
    pcAndP (start 0x00 0x00 0xFF 0x30 [0xCC, 0x00, 0x02] [(0x0200, 0x7F)]) = (0x0603, 0xB1) := by decide
/-- G1: `INX`. -/
theorem test_inx_G1 : xAndP (start 0x00 0x04 0x00 0x30 [0xE8] []) = (0x05, 0x30) := by decide
/-- G4: `INX`. -/
theorem test_inx_G4 : xAndP (start 0x00 0x7F 0x00 0x70 [0xE8] []) = (0x80, 0xF0) := by decide
/-- G5: `DEX`. -/
theorem test_dex_G5 : xAndP (start 0x00 0x01 0x00 0x30 [0xCA] []) = (0x00, 0x32) := by decide
/-- G6: `DEX`. -/
theorem test_dex_G6 : xAndP (start 0x00 0x00 0x00 0x31 [0xCA] []) = (0xFF, 0xB1) := by decide
/-- G8: `TAX`. -/
theorem test_tax_G8 : xAndP (start 0x80 0x00 0x00 0x30 [0xAA] []) = (0x80, 0xB0) := by decide
/-- T1: `BNE $0601`. -/
theorem test_bne_T1 : pcAndP (start 0x00 0x00 0x00 0x30 [0xD0, 0xFF] []) = (0x0601, 0x30) := by decide
/-- T3: `BNE $0601`. -/
theorem test_bne_T3 : pcAndP (start 0x00 0x00 0x00 0x32 [0xD0, 0xFF] []) = (0x0602, 0x32) := by decide
/-- T10: `JMP $1234`. -/
theorem test_jmpAbs_T10 : pcAndP (start 0x00 0x00 0x00 0x30 [0x4C, 0x34, 0x12] []) = (0x1234, 0x30) := by decide
/-- T13: `JMP ($0200)`. -/
theorem test_jmpInd_T13 :
    pcAndP (start 0x00 0x00 0x00 0x30 [0x6C, 0x00, 0x02] [(0x0200, 0x34), (0x0201, 0x12)]) =
      (0x1234, 0x30) := by decide
/-- T14: `JMP ($12FF)`. -/
theorem test_jmpInd_T14 :
    pcAndP (start 0x00 0x00 0x00 0x30 [0x6C, 0xFF, 0x12] [(0x12FF, 0x78), (0x1300, 0x56), (0x1200, 0x99)]) =
      (0x5678, 0x30) := by decide
/-- T16: `BRK`. -/
theorem test_brk_T16 : pcAndP (start 0x01 0x02 0x03 0xF3 [0x00] []) = (0x0601, 0xF3) := by decide

/-! ## Sequencer, fault, wrap and reset vectors -/

/-- Y1: an instruction that straddles the end of memory. -/
theorem test_step_Y1 :
    pcAndP { State.resetWith 0xFFFF 0x30 with
      mem := memWith [(0xFFFF, 0xAD), (0x0000, 0x34), (0x0001, 0x12), (0x1234, 0x5A)] } = (0x0002, 0x30) := by decide
/-- T9: a branch from 0x0000 wraps below it. -/
theorem test_step_T9 :
    pcAndP { State.resetWith 0x0000 0x30 with mem := memWith [(0x0000, 0xD0), (0x0001, 0x80)] } =
      (0xFF82, 0x30) := by decide
/-- W1 and W5: where the high byte of the pointer at 0x00FF lies, for each value of the open parameter. -/
theorem test_zpNextFor_W1_W5 : zpNextFor false 0xFF = 0x0100 ∧ zpNextFor true 0xFF = 0x0000 ∧
    zpNextFor false 0xFE = 0x00FF ∧ zpNextFor true 0xFE = 0x00FF := by decide
/-- L10: the addresses read by `LDA ($FF,X)`. -/
theorem test_stepReads_L10 :
    stepReads (start 0x00 0x02 0x00 0x30 [0xA1, 0xFF] [(0x0001, 0x00), (0x0002, 0x03), (0x0300, 0x5A)]) =
      [0x0600, 0x0601, 0x0001, 0x0002, 0x0300] := by decide
/-- S6: a store reads no operand byte and writes one byte. -/
theorem test_stepWrites_S6 :
    stepReads (start 0x16 0x02 0x00 0x30 [0x81, 0x20] [(0x0022, 0x01), (0x0023, 0x04)]) =
      [0x0600, 0x0601, 0x0022, 0x0023] ∧
    stepWrites (start 0x16 0x02 0x00 0x30 [0x81, 0x20] [(0x0022, 0x01), (0x0023, 0x04)]) = [(0x0401, 0x16)] := by decide
/-- F1: an undefined opcode faults; the outcome names it. -/
theorem test_fault_F1 : (start 0x77 0x00 0x00 0x30 [0xEA, 0xA9] []).stepped.outcome =
    .fault .undefinedOpcode 0xEA 0x0600 ∧ (start 0x77 0x00 0x00 0x30 [0xEA, 0xA9] []).stepped.pc = 0x0601 := by decide
/-- F4: the host cannot leave Faulted by writing memory and PC. -/
theorem test_fault_F4 : ((start 0x77 0x00 0x00 0x30 [0xEA] []).serveAll 0x0600 0x30
    [.step, .memWrite 0x0600 0xE8, .regWrite (.pc 0x0600), .step]).x = 0x00 := by decide
/-- F5: a reset leaves Faulted and clears memory. -/
theorem test_fault_F5 : (start 0x77 0x00 0x00 0x30 [0xEA] []).serveAll 0x0600 0x30 [.step, .reset] = State.reset := by
  decide
/-- F6: 0xEA as an operand is no opcode; the run ends Halted at 0x0603. -/
theorem test_run_F6 :
    ((start 0x00 0x00 0x00 0x30 [0xA9, 0xEA, 0x00] []).runWithin 5).map (fun t => (t.run, t.pc)) =
      some (.halted, 0x0603) := by decide
/-- H1: BRK halts. -/
theorem test_halt_H1 : (start 0x01 0x02 0x03 0xF3 [0x00] []).stepped.run = .halted := by decide
/-- X1: a machine stepped straight after reset halts. -/
theorem test_reset_X1 : State.reset.stepped.run = .halted ∧ State.reset.stepped.pc = 0x0601 := by decide
/-- X4: the same at the top of memory. -/
theorem test_reset_X4 : (State.resetWith 0xFFFF 0x30).stepped.pc = 0x0000 := by decide
/-- P5: a store is seen by the next fetch; three steps. -/
theorem test_selfModify_P5 :
    (((start 0x00 0x00 0x00 0x30 [0xA9, 0x07, 0x8D, 0x06, 0x06, 0xA2, 0x00, 0x00] []).stepMany 3).x) = 0x07 := by decide

/-! ## Witnesses: for each statement with hypotheses, data that meets them all -/

theorem test_witness_LdaLoadsOperand :
    ∀ i ∈ [Instr.ldaImm 0x80, .ldaZp 0x00, .ldaZpx 0xFF, .ldaAbs 0xFFFF, .ldaAbsx 0xFFFF,
    .ldaAbsy 0x0000, .ldaIndx 0xFF, .ldaIndy 0xFF], i.operation = .lda := by decide
theorem test_witness_LdxLoadsOperand :
    ∀ i ∈ [Instr.ldxImm 0x80, .ldxZp 0x00, .ldxZpy 0xFF, .ldxAbs 0xFFFF, .ldxAbsy 0xFFFF],
    i.operation = .ldx := by decide
theorem test_witness_LdyLoadsOperand :
    ∀ i ∈ [Instr.ldyImm 0x80, .ldyZp 0x00, .ldyZpx 0xFF, .ldyAbs 0xFFFF, .ldyAbsx 0xFFFF],
    i.operation = .ldy := by decide
theorem test_witness_StaStoresRegister : (∀ i ∈ [Instr.staZp 0x00, .staZpx 0xFF, .staAbs 0xFFFF, .staAbsx 0xFFFF,
    .staAbsy 0x0000, .staIndx 0xFF, .staIndy 0xFF], i.operation = .sta) ∧
    (start 0x0F 0x00 0x00 0x30 [0x85, 0x10] []).mem.wf = true := by decide
theorem test_witness_StxStoresRegister : (∀ i ∈ [Instr.stxZp 0x00, .stxZpy 0xFF, .stxAbs 0xFFFF], i.operation = .stx) ∧
    (start 0x00 0x05 0x00 0x30 [0x86, 0x10] []).mem.wf = true := by decide
theorem test_witness_StyStoresRegister : (∀ i ∈ [Instr.styZp 0x00, .styZpx 0xFF, .styAbs 0xFFFF], i.operation = .sty) ∧
    (start 0x00 0x00 0x08 0x30 [0x84, 0x10] []).mem.wf = true := by decide
theorem test_witness_AdcAddsWithCarry :
    ∀ i ∈ [Instr.adcImm 0x80, .adcZp 0x00, .adcZpx 0xFF, .adcAbs 0xFFFF, .adcAbsx 0xFFFF,
    .adcAbsy 0x0000, .adcIndx 0xFF, .adcIndy 0xFF], i.operation = .adc := by decide
theorem test_witness_AdcOverflowIsSignedRange : (Instr.adcImm 0x50).operation = .adc := by decide
theorem test_witness_CmpComparesUnsigned : ∀ i ∈ [Instr.cmpImm 0x80, .cmpZp 0x00, .cmpZpx 0xFF, .cmpAbs 0xFFFF,
    .cmpAbsx 0xFFFF, .cmpAbsy 0x0000, .cmpIndx 0xFF, .cmpIndy 0xFF], i.operation = .cmp := by decide
theorem test_witness_CpxComparesUnsigned :
    ∀ i ∈ [Instr.cpxImm 0x05, .cpxZp 0x10, .cpxAbs 0x0200], i.operation = .cpx := by
  decide
theorem test_witness_CpyComparesUnsigned :
    ∀ i ∈ [Instr.cpyImm 0x10, .cpyZp 0x10, .cpyAbs 0x0200], i.operation = .cpy := by
  decide
theorem test_witness_InxIncrementsX : (start 0x00 0xFF 0x00 0x30 [0xE8] []).run = .running ∧
    (start 0x00 0xFF 0x00 0x30 [0xE8] []).readByte (start 0x00 0xFF 0x00 0x30 [0xE8] []).pc = 0xE8 := by decide
theorem test_witness_DexDecrementsX : (start 0x00 0x00 0x00 0x30 [0xCA] []).run = .running ∧
    (start 0x00 0x00 0x00 0x30 [0xCA] []).readByte (start 0x00 0x00 0x00 0x30 [0xCA] []).pc = 0xCA := by decide
/-- Z set, Z clear, and a step on each. -/
theorem test_witness_BneBranchesOnZeroClear :
    (start 0x00 0x00 0x00 0x32 [0xD0, 0xFF] []).p.getLsbD 1 = true ∧
    (start 0x00 0x00 0x00 0x30 [0xD0, 0x80] []).p.getLsbD 1 = false ∧
    ∀ s ∈ [start 0x00 0x00 0x00 0x32 [0xD0, 0xFF] [], start 0x00 0x00 0x00 0x30 [0xD0, 0x80] []],
      s.run = .running ∧ s.readByte s.pc = 0xD0 := by decide
theorem test_witness_JmpSetsPcToEffectiveAddress :
    (Instr.jmpAbs 0x1234).operation = .jmp ∧ (Instr.jmpInd 0xFFFF).operation = .jmp := by decide
theorem test_witness_BrkHalts : (start 0x01 0x02 0x03 0xF3 [0x00] []).run = .running ∧
    (start 0x01 0x02 0x03 0xF3 [0x00] []).readByte (start 0x01 0x02 0x03 0xF3 [0x00] []).pc = 0x00 := by decide

/-- The table entry of the opcode byte at PC. -/
def entryAtPc (s : State) : Option (Mode × Operation) := opcodeTable (s.readByte s.pc)

theorem test_witness_ModesWithoutAddress :
    entryAtPc (start 0x00 0x00 0x00 0x30 [0xA9, 0x80] []) = some (.imm, .lda) ∧
    entryAtPc (start 0x00 0x00 0x00 0x30 [0xD0, 0xFF] []) = some (.rel, .bne) := by decide
theorem test_witness_ImpliedModeConsumesNothing :
    entryAtPc (start 0x00 0x04 0x00 0x30 [0xE8] []) = some (.imp, .inx) ∧
    entryAtPc (start 0x00 0x04 0x00 0x30 [0x00] []) = some (.imp, .brk) := by decide
/-- L5, L6, L14 and S11: an address that wraps inside the zero page, for an operation with a value and for one without. -/
theorem test_witness_ZeroPageModes :
    entryAtPc (start 0x00 0x00 0x00 0x30 [0xA5, 0x10] []) = some (.zp, .lda) ∧
    entryAtPc (start 0x00 0x20 0x00 0x30 [0xB5, 0xF0] []) = some (.zpx, .lda) ∧
    entryAtPc (start 0x00 0x00 0x01 0x30 [0xB6, 0xFF] []) = some (.zpy, .ldx) ∧
    entryAtPc (start 0x00 0x06 0x20 0x30 [0x96, 0xF0] []) = some (.zpy, .stx) := by decide
theorem test_witness_AbsoluteMode :
    entryAtPc (start 0x00 0x00 0x00 0x30 [0xAD, 0xFF, 0xFF] []) = some (.abs, .lda) ∧
    entryAtPc (start 0x00 0x00 0x00 0x30 [0x4C, 0x34, 0x12] []) = some (.abs, .jmp) := by decide
/-- L8 and S5: a carry into the high byte; a sum past 0xFFFF. -/
theorem test_witness_AbsoluteIndexedModes :
    entryAtPc (start 0x00 0x02 0x00 0x30 [0xBD, 0xFF, 0x12] []) = some (.absx, .lda) ∧
    entryAtPc (start 0x22 0x00 0x02 0x30 [0x99, 0xFF, 0xFF] []) = some (.absy, .sta) := by decide
/-- T14 and T15: a pointer at a page's end; a pointer at 0xFFFF. -/
theorem test_witness_IndirectMode :
    entryAtPc (start 0x00 0x00 0x00 0x30 [0x6C, 0xFF, 0x12] []) = some (.ind, .jmp) ∧
    entryAtPc (start 0x00 0x00 0x00 0x30 [0x6C, 0xFF, 0xFF] []) = some (.ind, .jmp) := by decide
/-- W1, W4 and L10: a pointer at 0x00FF, at 0x00FE, and one that wraps to 0x0001. -/
theorem test_witness_IndexedIndirectMode :
    ∀ s ∈ [(start 0x00 0x00 0x00 0x30 [0xA1, 0xFF] [], 255), (start 0x00 0x00 0x00 0x30 [0xA1, 0xFE] [], 254),
        (start 0x00 0x02 0x00 0x30 [0xA1, 0xFF] [], 1)],
      entryAtPc s.1 = some (.indx, .lda) ∧ s.2 = ((s.1.readByte (s.1.pc + 1)).toNat + s.1.x.toNat) % 256 := by decide
/-- W2 and S8: a pointer at 0x00FF; a base whose sum with Y passes 0xFFFF. -/
theorem test_witness_IndirectIndexedMode :
    ∀ s ∈ [(start 0x00 0x00 0x01 0x30 [0xB1, 0xFF] [], 255), (start 0x00 0x00 0x01 0x30 [0xB1, 0xFE] [], 254)],
      entryAtPc s.1 = some (.indy, .lda) ∧ s.2 = (s.1.readByte (s.1.pc + 1)).toNat := by decide
theorem test_witness_ExtensionsZeroAndSign :
    (0x7F : Byte).toNat < 0x80 ∧ 0x80 ≤ (0x80 : Byte).toNat ∧ 0x80 ≤ (0xFF : Byte).toNat := by decide
/-- The zero value and its absence; the first and the last bit kept. -/
theorem test_witness_SetZNWritesZeroAndNegative : (0x00 : Byte) = 0 ∧ (0x80 : Byte) ≠ 0 ∧
    0 < 7 ∧ 0 ≠ 1 ∧ 6 < 7 ∧ 6 ≠ 1 := by decide
theorem test_witness_MemoryReadsLastWrite :
    (memWith [(0x0000, 0x12), (0xFFFF, 0x34)]).wf = true ∧ Memory.wf [] = true := by decide

/-- A state with `STA $0200` next, and the state after it. -/
def storing : State := start 0x5A 0x00 0x00 0x30 [0x8D, 0x00, 0x02] []

theorem test_witness_StoreThenLoadRoundTrips :
    storedByte (Instr.staAbs 0x0200).operation storing = some 0x5A ∧ storing.mem.wf = true ∧
    effectiveAddress (.staAbs 0x0200) storing = some 0x0200 ∧
    exec (.staAbs 0x0200) storing = .next (storing.writeByte 0x0200 0x5A) ∧
    effectiveAddress (.ldxAbs 0x0200) (storing.writeByte 0x0200 0x5A) = some 0x0200 ∧
    Operation.wantsValue (Instr.ldxAbs 0x0200).operation = true := ⟨rfl, by decide, rfl, rfl, rfl, rfl⟩
theorem test_witness_EncodeOfDecodeIsIdentity :
    decode [0xBD, 0xFF, 0x12, 0xEA] = .ok (.ldaAbsx 0x12FF) [0xEA] := by decide
theorem test_witness_LengthFollowsFromOpcodeByte :
    decode [0xAD, 0x34, 0x12] = .ok (.ldaAbs 0x1234) [] ∧
    decode [0xAD, 0x00, 0x00, 0x01] = .ok (.ldaAbs 0x0000) [0x01] ∧
    fetchInstr (start 0x00 0x04 0x00 0x30 [0xE8] []) =
      .instr .inx ((start 0x00 0x04 0x00 0x30 [0xE8] []).setPc 0x0601) := by decide
theorem test_witness_StepRunsDecodedInstruction : (start 0x00 0x00 0x00 0x30 [0xA9, 0x80, 0x00] []).run = .running ∧
    decode (bytesAtPc (start 0x00 0x00 0x00 0x30 [0xA9, 0x80, 0x00] [])) = .ok (.ldaImm 0x80) [0x00] := by decide
theorem test_witness_PlacedWordIsNextInstruction : State.reset.mem.wf = true ∧
    decodeTableWord 16 0x80A9 = some (.ldaImm 0x80) ∧ (0x1234 : Addr) ≠ State.reset.pc ∧
    (0x1234 : Addr) ≠ State.reset.pc + 1 ∧ (0x1234 : Addr) ≠ State.reset.pc + 2 := by decide

/-- A state about to fault, at the byte 0xEA. -/
def faulting : State := start 0x77 0x00 0x00 0x30 [0xEA, 0xA9] []
/-- A state that no run reaches: the unreachable kind in the latch. -/
def mismatched : State := { State.resetWith 0x0600 0x30 with run := .halted, faultKind := .resolverModeMismatch }

/-- A Running state on a defined byte, one on an undefined byte; a state that is not Faulted. -/
theorem test_witness_UndefinedOpcodeFaultsOnFetch : faulting.run = .running ∧ faulting.stepped.run = .faulted ∧
    State.reset.run = .running ∧ State.reset.stepped.run ≠ .faulted ∧ State.reset.run ≠ .faulted := by decide
theorem test_witness_FaultEntryIsPrecise : faulting.run = .running ∧ entryAtPc faulting = none := by decide
theorem test_witness_ModeMismatchIsUnreachable : opcodeTable 0xB1 = some (.indy, .lda) ∧
    step mismatched = .next mismatched ∧ mismatched.faultKind = .resolverModeMismatch := ⟨by decide, rfl, rfl⟩
theorem test_witness_StoppedStepChangesNothing :
    State.reset.stepped.run = .halted ∧ faulting.stepped.run = .faulted := by decide
/-- Each of the four branches: stopped, 0x00, undefined, executed. -/
theorem test_witness_StepOutcomeByPriority : step mismatched = .next mismatched ∧ mismatched.run ≠ .running ∧
    step State.reset = .next State.reset.stepped ∧ State.reset.readByte State.reset.pc = 0x00 ∧
    step faulting = .next faulting.stepped ∧ entryAtPc faulting = none ∧
    step storing = .next storing.stepped ∧ entryAtPc storing = some (.abs, .sta) :=
  ⟨rfl, by decide, rfl, by decide, rfl, by decide, rfl, by decide⟩
theorem test_witness_SequentialInstructionsAdvancePc : storing.run = .running ∧ entryAtPc storing = some (.abs, .sta) ∧
    Operation.sta ≠ .bne ∧ Operation.sta ≠ .jmp ∧ Operation.sta ≠ .brk := by decide
theorem test_witness_UnreadStatusBitsAreInert :
    (0xF9 : Byte).getLsbD 0 = (0x31 : Byte).getLsbD 0 ∧ (0xF9 : Byte).getLsbD 1 = (0x31 : Byte).getLsbD 1 ∧
    (0xF9 : Byte) ≠ 0x31 := by decide
/-- An instruction for each clause's premise. -/
theorem test_witness_FlagsChangeOnlyByTheirOperations :
    (Instr.ldaImm 0x80).operation ∉ [Operation.adc, .cmp, .cpx, .cpy] ∧ (Instr.cmpImm 0x80).operation ≠ .adc ∧
    (Instr.staZp 0x10).operation ∈ [Operation.sta, .stx, .sty, .bne, .jmp, .brk] := by decide
/-- An instruction for each clause's premise. -/
theorem test_witness_RegistersChangeOnlyByTheirOperations :
    (Instr.ldxImm 0x80).operation ∉ [Operation.lda, .adc] ∧
    (Instr.ldaImm 0x80).operation ∉ [Operation.ldx, .inx, .dex, .tax] ∧ (Instr.ldxImm 0x80).operation ≠ .ldy ∧
    (Instr.staZp 0x10).operation ∉ [Operation.bne, .jmp] ∧ (Instr.staZp 0x10).operation ≠ .brk := by decide
/-- A step with a write, and an address outside it. -/
theorem test_witness_StepMemoryIsItsWrites : step storing = .next storing.stepped ∧ stepWrites storing ≠ [] ∧
    (0x0201 : Addr) ∉ (stepWrites storing).map Prod.fst := ⟨rfl, by decide, by decide⟩
/-- An undefined byte; then no pointer and no operand read (STA), an operand read alone (L7), two pointer reads alone (T15),
and both, in each pointer mode (L10, L11). -/
theorem test_witness_ReadCountsByMode : faulting.run = .running ∧ entryAtPc faulting = none ∧
    ∀ s ∈ [(storing, Mode.abs, Operation.sta), (start 0x00 0x00 0x00 0x30 [0xAD, 0x34, 0x12] [], .abs, .lda),
        (start 0x00 0x00 0x00 0x30 [0x6C, 0xFF, 0xFF] [], .ind, .jmp),
        (start 0x00 0x02 0x00 0x30 [0xA1, 0xFF] [], .indx, .lda), (start 0x00 0x00 0x20 0x30 [0xB1, 0x10] [], .indy, .lda)],
      s.1.run = .running ∧ entryAtPc s.1 = some s.2 := by decide
/-- T15: the pointer clause of ReadCountsByMode has a pointer to speak of, at 0xFFFF and 0x0000. -/
theorem test_pointerReads_T15 :
    Operand.pointerReads (.ind 0xFFFF) (start 0x00 0x00 0x00 0x30 [0x6C, 0xFF, 0xFF] []) = [0xFFFF, 0x0000] := by decide
/-- Another memory that agrees at the bytes read and differs elsewhere. -/
theorem test_witness_StepDependsOnlyOnItsReads :
    (∀ a ∈ stepReads storing, (storing.mem.write 0x0200 0x99).read a.toNat = storing.mem.read a.toNat) ∧
    storing.mem.write 0x0200 0x99 ≠ storing.mem := by
  rw [show stepReads storing = [0x0600, 0x0601, 0x0602] by decide,
    show storing.mem = [(0x0600, 0x8D), (0x0602, 0x02)] by decide]
  simp [Memory.write, Memory.read, Memory.unlisted]
theorem test_witness_StepKeepsInvariant : storing.Inv ∧ step storing = .next storing.stepped :=
  ⟨⟨by decide, by decide⟩, rfl⟩
/-- A faulting state too, and a Faulted one. -/
theorem test_witness_HostRequestsKeepInvariant : faulting.Inv ∧ faulting.stepped.Inv :=
  ⟨⟨by decide, by decide⟩, ⟨by decide, by decide⟩⟩
theorem test_witness_OnlyResetLeavesTerminalStates : faulting.stepped.run ≠ .running ∧
    State.reset.stepped.run ≠ .running ∧
    HostRequest.reset ∉ [HostRequest.memWrite 0x0600 0xE8, .regWrite (.pc 0x0600), .step] := by decide
theorem test_witness_HostMemoryPortWritesOneByte : faulting.stepped.mem.wf = true ∧ (0x0000 : Addr) ≠ 0xFFFF := by decide
theorem test_witness_RunReturnsOneTerminalState : State.reset.RunReturns State.reset.stepped ∧
    State.reset.runWithin 1 = some State.reset.stepped :=
  ⟨⟨1, rfl, by decide, fun k hk => by cases Nat.lt_one_iff.1 hk; rfl⟩, by decide⟩

end Sys2Proof.Tests
end

section
/-! The byte conversions and the Z/N update of spec/00_scope.md (R10, R13). -/

namespace Sys2Proof.Proofs
open Sys2Proof.Machine

/-- The two halves of `sext16_toNat` are one number: the byte's two's complement value modulo 65536. -/
theorem sext16_toNat_eq_toInt_emod (b : Byte) : ((sext16 b).toNat : Int) = b.toInt % 65536 := by
  have hb := b.isLt
  rw [sext16_toNat, BitVec.toInt_eq_toNat_cond]
  by_cases hneg : b.toNat < 0x80
  · rw [if_pos hneg, if_pos (by omega)]
    omega
  · rw [if_neg hneg, if_neg (by omega)]
    omega

/-- Settles O26: the model's value lemmas for the two extensions, on either side of 0x80, and the two's complement
reading. -/
theorem extensionsZeroAndSign : Obligations.ExtensionsZeroAndSign := fun b =>
  ⟨zext16_toNat b, fun hlow => (sext16_toNat b).trans (if_pos hlow),
    fun hhigh => (sext16_toNat b).trans (if_neg (Nat.not_lt.2 hhigh)), sext16_toNat_eq_toInt_emod b⟩

/-- Settles O27: `getLsbD_setZN` read at bit 1, at bit 7 and at any other bit. -/
theorem setZNWritesZeroAndNegative : Obligations.SetZNWritesZeroAndNegative := by
  intro v p
  refine ⟨?zero, ?negative, ?kept⟩
  case zero =>
    rw [getLsbD_setZN v p 1 (by decide), if_neg (by decide), if_pos rfl, decide_eq_true_iff]
  case negative => exact getLsbD_setZN v p 7 (by decide)
  case kept =>
    intro k hk hk1
    rw [getLsbD_setZN v p k (by omega), if_neg (by omega), if_neg hk1]

end Sys2Proof.Proofs
end

section
/-! Memory as a plain store of bytes, and the host's memory port: spec/20_memory.md (R56, R63). -/

namespace Sys2Proof.Proofs
open Sys2Proof.Machine

/-- The two write rules of a canonical memory as one, over addresses. -/
theorem read_write {m : Memory} (hm : m.wf = true) (a b : Addr) (v : Byte) :
    (m.write a.toNat v).read b.toNat = if b = a then v else m.read b.toNat := by
  by_cases hba : b = a
  · rw [if_pos hba, hba, Memory.read_write_same hm]
  · rw [if_neg hba, Memory.read_write_other fun hn => hba (BitVec.eq_of_toNat_eq hn)]

theorem writeAll_concat (m : Memory) (ws : List (Addr × Byte)) (w : Addr × Byte) :
    m.writeAll (ws ++ [w]) = (m.writeAll ws).write w.1.toNat w.2 :=
  List.foldl_append

theorem writeAll_wf {m : Memory} (hm : m.wf = true) (ws : List (Addr × Byte)) : (m.writeAll ws).wf = true := by
  induction ws using List.reverseRecOn with
  | nil => exact hm
  | append_singleton ws w ih =>
    rw [writeAll_concat]
    exact Memory.write_wf ih w.1 w.2

/-- After writes to any canonical memory an address reads as its last write, or as before if it has none. -/
theorem read_writeAll {m : Memory} (hm : m.wf = true) (ws : List (Addr × Byte)) (a : Addr) :
    (m.writeAll ws).read a.toNat =
      ((ws.reverse.find? fun w => w.1 == a).map Prod.snd).getD (m.read a.toNat) := by
  induction ws using List.reverseRecOn with
  | nil => rfl
  | append_singleton ws w ih =>
    rw [writeAll_concat, read_write (writeAll_wf hm ws), List.reverse_concat]
    by_cases hwa : w.1 = a
    · rw [if_pos hwa.symm, List.find?_cons, beq_iff_eq.2 hwa]
      rfl
    · rw [if_neg (Ne.symm hwa), List.find?_cons, beq_eq_false_iff_ne.2 hwa]
      exact ih

/-- Settles O28: `read_writeAll` and `writeAll_wf` from the memory of reset, which holds no cell, and the one-write rule
`read_write`. -/
theorem memoryReadsLastWrite : Obligations.MemoryReadsLastWrite :=
  ⟨fun ws a => ⟨writeAll_wf rfl ws, read_writeAll rfl ws a⟩, fun _ a b v hm => read_write hm a b v⟩

/-- Settles O58: a host write is the state's `writeByte`, whose rules do not look at RUN. -/
theorem hostMemoryPortWritesOneByte : Obligations.HostMemoryPortWritesOneByte := fun _ _ s a v hm =>
  ⟨s.mem.write a.toNat v, rfl, State.writeByte_wf hm a v, State.readByte_writeByte_same hm a v,
    fun _ hba => State.readByte_writeByte_other s hba v⟩

end Sys2Proof.Proofs
end

section
/-! What decoding says of an instruction's length: spec/30_encoding.md section 1 (R80). -/

namespace Sys2Proof.Proofs
open Sys2Proof.Machine

theorem mode_length_cases (m : Mode) : m.length = 1 ∨ m.length = 2 ∨ m.length = 3 := by
  cases m <;> decide

/-- The bytes that decoding takes off the list are as many as the instruction's length. -/
theorem length_of_decode {bs rest : List Byte} {i : Instr} (h : decode bs = .ok i rest) :
    bs.length = rest.length + i.length := by
  obtain ⟨b, tail, rfl, -, rfl⟩ := decode_ok h
  have hoperand : i.operand.bytes.length = i.mode.operandBytes := i.operand.bytes_length
  rw [List.length_cons, List.length_append, hoperand, Instr.length, Mode.length]
  omega

/-- Decoding looks the mode up by the first byte. -/
theorem opcodeTable_of_decode_cons {b : Byte} {tail rest : List Byte} {i : Instr}
    (h : decode (b :: tail) = .ok i rest) : opcodeTable b = some (i.mode, i.operation) := by
  obtain ⟨_, _, hbs, htable, -⟩ := decode_ok h
  obtain ⟨rfl, -⟩ := List.cons.inj hbs
  exact htable

/-- The fetched instruction is the one the bytes at PC decode to. -/
theorem decode_bytesAtPc_of_fetch {s t : State} {i : Instr} (h : fetchInstr s = .instr i t) :
    ∃ rest, decode (bytesAtPc s) = .ok i rest := by
  rcases fetchInstr_cases s with ⟨-, hfault⟩ | ⟨j, rest, -, hdecode, hinstr⟩
  · rw [hfault] at h
    cases h
  · obtain ⟨rfl, -⟩ := Fetched.instr.inj (hinstr.symm.trans h)
    exact ⟨rest, hdecode⟩

/-- Settles O32: the length is the mode's, and the mode is the table's at the opcode byte. -/
theorem lengthFollowsFromOpcodeByte : Obligations.LengthFollowsFromOpcodeByte := by
  refine ⟨?bytes, ?sameLength, fun _ _ _ => decode_bytesAtPc_of_fetch⟩
  case bytes =>
    intro bs i rest h
    obtain ⟨b, tail, hbs, htable, -⟩ := decode_ok h
    exact ⟨b, tail, hbs, opcode_of_table htable, htable, length_of_decode h, mode_length_cases i.mode⟩
  case sameLength =>
    intro b tail tail' i i' rest rest' h h'
    have hentry := (opcodeTable_of_decode_cons h).symm.trans (opcodeTable_of_decode_cons h')
    obtain ⟨hmode, -⟩ := Prod.mk.inj (Option.some.inj hentry)
    exact congrArg Mode.length hmode

end Sys2Proof.Proofs
end

section
/-! What the fetch yields in an addressing mode: spec/40_sequencer_and_modes.md section 2 (R118 to R124). -/

namespace Sys2Proof.Proofs
open Sys2Proof.Machine

/-- The operand that a mode makes of the two bytes after the opcode byte at PC. -/
def operandAtPc (s : State) (m : Mode) : Operand :=
  Operand.ofBytes m (s.readByte (s.pc + 1)) (s.readByte (s.pc + 2))

/-- The resolver's answers for a fetched instruction, from the state before the fetch: consuming bytes moves PC alone,
which no mode looks at. -/
theorem fetch_resolves {s t : State} {m : Mode} {op : Operation}
    (hentry : opcodeTable (s.readByte s.pc) = some (m, op)) (ht : t = s.skip m.length) :
    ∃ i, fetchInstr s = .instr i t ∧ i.operation = op ∧ i.length = m.length ∧
      effectiveAddress i t = Operand.ea (operandAtPc s m) s ∧
      operandValue i t = Operand.value (operandAtPc s m) (Operation.wantsValue op) s := by
  subst ht
  obtain ⟨i, rfl, hoperand, hfetch⟩ := fetch_operand hentry
  change i.operand = operandAtPc s m at hoperand
  obtain ⟨hea, hvalue⟩ := resolve_congr i (s.skip_x m.length) (s.skip_y m.length) (s.skip_mem m.length)
  refine ⟨i, hfetch, rfl, ?length, ?ea, ?value⟩
  case length => rw [Instr.length, Instr.mode, hoperand, operandAtPc, Operand.ofBytes_mode]
  case ea => rw [hea, effectiveAddress, hoperand]
  case value => rw [hvalue, operandValue, hoperand]

/-- Where no value is wanted, an operand with an effective address yields none. -/
theorem value_false_of_ea {o : Operand} {s : State} {ea : Addr} (h : Operand.ea o s = some ea) :
    Operand.value o false s = none := by
  cases o with
  | imm | rel => cases h
  | _ => rfl

/-- `operandValue_of_ea` with its other case: an instruction with an effective address yields the byte there when its
operation wants a value, and no value otherwise. -/
theorem operandValue_eq_ite_of_ea {i : Instr} {s : State} {ea : Addr} (h : effectiveAddress i s = some ea) :
    operandValue i s = if Operation.wantsValue i.operation then some (s.readByte ea) else none := by
  cases hw : Operation.wantsValue i.operation with
  | true => exact operandValue_of_ea h hw
  | false =>
    rw [operandValue, hw]
    exact value_false_of_ea h

/-- A fetch in a mode that has an effective address: the address is the mode's, and the operand value is the byte
there exactly when the operation wants one. -/
theorem fetch_memory_mode {s t : State} {m : Mode} {op : Operation} {a : Addr} {n : Nat}
    (hentry : opcodeTable (s.readByte s.pc) = some (m, op)) (ht : t = s.skip m.length)
    (ha : Operand.ea (operandAtPc s m) s = some a) (hn : a.toNat = n) :
    ∃ i ea, fetchInstr s = .instr i t ∧ i.operation = op ∧ effectiveAddress i t = some ea ∧ ea.toNat = n ∧
      operandValue i t = if Operation.wantsValue op then some (s.readByte ea) else none := by
  obtain ⟨i, hfetch, rfl, -, hi, -⟩ := fetch_resolves hentry ht
  have hea : effectiveAddress i t = some a := hi.trans ha
  refine ⟨i, a, hfetch, rfl, hea, hn, ?_⟩
  subst ht
  exact operandValue_eq_ite_of_ea hea

/-- Settles O20: the three zero-page addresses as numbers. -/
theorem zeroPageModes : Obligations.ZeroPageModes :=
  ⟨fun _ _ _ hentry ht => fetch_memory_mode hentry ht rfl (zext16_toNat _),
    fun s _ _ hentry ht => fetch_memory_mode hentry ht rfl (eaZpx_toNat _ s),
    fun s _ _ hentry ht => fetch_memory_mode hentry ht rfl (eaZpy_toNat _ s)⟩

/-- Settles O21: the absolute address is the little-endian word of the two operand bytes. -/
theorem absoluteMode : Obligations.AbsoluteMode := fun _ _ _ hentry ht =>
  fetch_memory_mode hentry ht rfl (word16_toNat _ _)

/-- An operand without an effective address reads no pointer. -/
theorem pointerReads_of_ea_none {o : Operand} {s : State} (h : Operand.ea o s = none) :
    Operand.pointerReads o s = [] := by
  cases o with
  | ind | indx | indy => cases h
  | _ => rfl

/-- A step whose instruction has no effective address reads the instruction's own bytes only. -/
theorem stepReads_of_ea_none {s t : State} {i : Instr} (hrun : s.run = .running) (hfetch : fetchInstr s = .instr i t)
    (hea : effectiveAddress i t = none) : stepReads s = instrByteAddrs s.pc i.length := by
  have hoperand : operandReads i t = [] := by rw [operandReads, hea, Option.toList_none, ite_self]
  rw [stepReads_of_fetch hrun hfetch, pointerReads_of_ea_none hea, hoperand, List.append_nil, List.append_nil]

theorem instrByteAddrs_two (a : Addr) : instrByteAddrs a 2 = [a, a + 1] :=
  congrArg (· :: [a + 1]) (BitVec.add_zero a)

/-- Settles O18: the resolver at the two modes whose operand is the byte itself. -/
theorem modesWithoutAddress : Obligations.ModesWithoutAddress := by
  intro s t m op hentry hmode ht
  have hlength : m.length = 2 := by rcases hmode with rfl | rfl <;> rfl
  have hnone : Operand.ea (operandAtPc s m) s = none := by rcases hmode with rfl | rfl <;> rfl
  have hbyte : ∀ want, Operand.value (operandAtPc s m) want s = some (s.readByte (s.pc + 1)) := by
    rcases hmode with rfl | rfl <;> exact fun _ => rfl
  obtain ⟨i, hfetch, hop, hilength, hea, hvalue⟩ := fetch_resolves hentry (ht.trans (by rw [hlength]; rfl))
  refine ⟨i, hfetch, hop, hea.trans hnone, hvalue.trans (hbyte _), fun hrun => ?_⟩
  rw [stepReads_of_ea_none hrun hfetch (hea.trans hnone), hilength, hlength, instrByteAddrs_two]

theorem operation_of_supports_imp {op : Operation} (h : op.modes.contains .imp = true) :
    op = .inx ∨ op = .dex ∨ op = .tax ∨ op = .brk := by
  revert h
  cases op <;> decide

/-- Settles O19: the catalog's operations with an implied mode, and the resolver at a mode without a field. -/
theorem impliedModeConsumesNothing : Obligations.ImpliedModeConsumesNothing := by
  intro s t op hentry ht
  obtain ⟨i, hfetch, hop, -, hea, hvalue⟩ := fetch_resolves hentry ht
  exact ⟨operation_of_supports_imp (opcodeTable_supported hentry), i, hfetch, hop, hea, hvalue⟩

end Sys2Proof.Proofs
end

section
/-! Loads and stores: spec/41_load_store.md (R150 to R153), with the encodings of an operation and what `exec` does for
the operations that read an operand and for those that write memory. -/

namespace Sys2Proof.Proofs
open Sys2Proof.Machine

/-- The encodings of an operation: opcode byte, mode and length of each of its catalog entries (R90). -/
def encodings (op : Operation) : List (Byte × Mode × Nat) :=
  (catalog.filter fun e => e.operation = op).map fun e => (e.opcode, e.mode, e.mode.length)

theorem mem_encodings {op : Operation} {b : Byte} {m : Mode} :
    (b, m, m.length) ∈ encodings op ↔ opcodeTable b = some (m, op) := by
  simp only [opcodeTable_eq_some, encodings, List.mem_map, List.mem_filter, decide_eq_true_eq]
  constructor
  · rintro ⟨e, ⟨he, rfl⟩, hentry⟩
    cases hentry
    exact he
  · exact fun h => ⟨_, ⟨h, rfl⟩, rfl⟩

/-- A list with the encodings of an operation, in any order, says what the decoder's table gives that operation. -/
theorem opcodeTable_iff_mem_of_perm {op : Operation} {l : List (Byte × Mode × Nat)} (h : (encodings op).Perm l)
    (b : Byte) (m : Mode) : opcodeTable b = some (m, op) ↔ (b, m, m.length) ∈ l :=
  mem_encodings.symm.trans h.mem_iff

/-- An operation that wants an operand value gets one from the resolver and works on it. -/
theorem exec_of_wantsValue {i : Instr} {op : Operation} (hop : i.operation = op)
    (hwants : Operation.wantsValue op = true) (s : State) :
    ∃ v ea, operandValue i s = some v ∧ exec i s = .next (effect op v ea s) := by
  subst hop
  obtain ⟨v, hv⟩ := operandValue_isSome hwants s
  refine ⟨v, (effectiveAddress i s).getD 0, hv, ?_⟩
  rw [exec_eq_effect, hv, Option.getD_some]

/-- What the three loads share. `load v p` is the state with v in the register that the operation loads and p in P; the
flags are `SetZN` of the loaded byte (R13). -/
theorem exec_load {i : Instr} {s : State} {op : Operation} {load : Byte → Byte → State} (hop : i.operation = op)
    (hwants : Operation.wantsValue op = true) (heffect : ∀ v ea, effect op v ea s = load v (setZN v s.p)) :
    ∃ v p', operandValue i s = some v ∧ exec i s = .next (load v p') ∧
      ∀ k, k < 8 →
        p'.getLsbD k = if k = 7 then v.getLsbD 7 else if k = 1 then decide (v = 0) else s.p.getLsbD k := by
  obtain ⟨v, ea, hvalue, hexec⟩ := exec_of_wantsValue hop hwants s
  exact ⟨v, setZN v s.p, hvalue, heffect v ea ▸ hexec, getLsbD_setZN v s.p⟩

/-- Settles O1: LDA is the load of A. -/
theorem ldaLoadsOperand : Obligations.LdaLoadsOperand :=
  ⟨opcodeTable_iff_mem_of_perm (by decide), fun _ s hop =>
    exec_load (load := fun v p => { s with a := v, p := p }) hop rfl fun _ _ => rfl⟩

/-- Settles O2: LDX is the load of X. -/
theorem ldxLoadsOperand : Obligations.LdxLoadsOperand :=
  ⟨opcodeTable_iff_mem_of_perm (by decide), fun _ s hop =>
    exec_load (load := fun v p => { s with x := v, p := p }) hop rfl fun _ _ => rfl⟩

/-- Settles O3: LDY is the load of Y. -/
theorem ldyLoadsOperand : Obligations.LdyLoadsOperand :=
  ⟨opcodeTable_iff_mem_of_perm (by decide), fun _ s hop =>
    exec_load (load := fun v p => { s with y := v, p := p }) hop rfl fun _ _ => rfl⟩

/-- An operation with a byte to store is one of the three stores, and the byte is its register. -/
theorem storedByte_eq_some {op : Operation} {s : State} {v : Byte} (h : storedByte op s = some v) :
    (op = .sta ∧ v = s.a) ∨ (op = .stx ∧ v = s.x) ∨ (op = .sty ∧ v = s.y) := by
  cases op with
  | sta => exact .inl ⟨rfl, (Option.some.inj h).symm⟩
  | stx => exact .inr (.inl ⟨rfl, (Option.some.inj h).symm⟩)
  | sty => exact .inr (.inr ⟨rfl, (Option.some.inj h).symm⟩)
  | _ => cases h

/-- A store wants no operand value, so it does not read the byte it replaces (R62). -/
theorem wantsValue_of_storedByte {op : Operation} {s : State} {v : Byte} (h : storedByte op s = some v) :
    Operation.wantsValue op = false := by
  rcases storedByte_eq_some h with ⟨rfl, -⟩ | ⟨rfl, -⟩ | ⟨rfl, -⟩ <;> rfl

theorem effect_of_storedByte {op : Operation} {s : State} {v : Byte} (h : storedByte op s = some v) (w : Byte)
    (ea : Addr) : effect op w ea s = s.writeByte ea v := by
  rcases storedByte_eq_some h with ⟨rfl, rfl⟩ | ⟨rfl, rfl⟩ | ⟨rfl, rfl⟩ <;> rfl

theorem effectiveAddress_of_storedByte {i : Instr} {s : State} {v : Byte} (h : storedByte i.operation s = some v) :
    ∃ ea, effectiveAddress i s = some ea := by
  refine effectiveAddress_isSome ?_ s
  rcases storedByte_eq_some h with ⟨hop, -⟩ | ⟨hop, -⟩ | ⟨hop, -⟩ <;> simp [hop]

/-- A store, in every mode, puts its byte at the effective address of a canonical memory and changes nothing else. -/
theorem exec_store {i : Instr} {s : State} {v : Byte} (hstore : storedByte i.operation s = some v)
    (hm : s.mem.wf = true) :
    ∃ ea m', effectiveAddress i s = some ea ∧ operandReads i s = [] ∧ exec i s = .next { s with mem := m' } ∧
      m'.wf = true ∧ m'.read ea.toNat = v ∧ ∀ a : Addr, a ≠ ea → m'.read a.toNat = s.mem.read a.toNat := by
  obtain ⟨ea, hea⟩ := effectiveAddress_of_storedByte hstore
  refine ⟨ea, s.mem.write ea.toNat v, hea, ?noRead, ?next, Memory.write_wf hm ea v, Memory.read_write_same hm _ v,
    fun a hne => State.readByte_writeByte_other s hne v⟩
  case noRead => simp [operandReads, wantsValue_of_storedByte hstore]
  case next =>
    rw [exec_eq_effect, effect_of_storedByte hstore, hea]
    rfl

/-- Settles O4: STA is the store whose byte is A. -/
theorem staStoresRegister : Obligations.StaStoresRegister :=
  ⟨opcodeTable_iff_mem_of_perm (by decide), fun i s hop hm => exec_store (congrArg (storedByte · s) hop) hm⟩

end Sys2Proof.Proofs
end

section
/-! The compares: spec/42_add_compare.md (R173 to R175). -/

namespace Sys2Proof.Proofs
open Sys2Proof.Machine

/-- The wrapped difference of two bytes, with the 256 that is borrowed written so that nothing is cut off at 0. -/
theorem byte_sub_toNat (r v : Byte) : (r - v).toNat = (r.toNat + 256 - v.toNat) % 256 := by
  have hv := v.isLt
  rw [BitVec.toNat_sub]
  omega

/-- What the three compares share. `r` is the value of the register that the operation compares; the difference is the
byte from which Z and N come, and C says that it needed no borrow (R173). -/
theorem exec_compare {i : Instr} {s : State} {op : Operation} {r : Byte} (hop : i.operation = op)
    (hwants : Operation.wantsValue op = true) (heffect : ∀ v ea, effect op v ea s = s.compareWith r v) :
    ∃ v d p', operandValue i s = some v ∧ exec i s = .next { s with p := p' } ∧
      (d : Byte).toNat = (r.toNat + 256 - v.toNat) % 256 ∧
      ∀ k, k < 8 → p'.getLsbD k =
        if k = 7 then d.getLsbD 7 else if k = 1 then decide (d = 0)
        else if k = 0 then decide (r.toNat ≥ v.toNat) else s.p.getLsbD k := by
  obtain ⟨v, ea, hvalue, hexec⟩ := exec_of_wantsValue hop hwants s
  exact ⟨v, r - v, compareFlags r v s.p, hvalue, hexec.trans (congrArg _ (heffect v ea)),
    byte_sub_toNat r v, getLsbD_compareFlags r v s.p⟩

/-- Settles O9: CMP is the compare of A. -/
theorem cmpComparesUnsigned : Obligations.CmpComparesUnsigned :=
  ⟨opcodeTable_iff_mem_of_perm (by decide), fun _ _ hop => exec_compare hop rfl fun _ _ => rfl⟩

/-- Settles O10: CPX is the compare of X. -/
theorem cpxComparesUnsigned : Obligations.CpxComparesUnsigned :=
  ⟨opcodeTable_iff_mem_of_perm (by decide), fun _ _ hop => exec_compare hop rfl fun _ _ => rfl⟩

/-- Settles O11: CPY is the compare of Y. -/
theorem cpyComparesUnsigned : Obligations.CpyComparesUnsigned :=
  ⟨opcodeTable_iff_mem_of_perm (by decide), fun _ _ hop => exec_compare hop rfl fun _ _ => rfl⟩

end Sys2Proof.Proofs
end

section
/-! The register operations: spec/43_register_ops.md (R190 to R192). -/

namespace Sys2Proof.Proofs
open Sys2Proof.Machine

/-- What the operations on X share. `r` is the byte that the operation puts in X; the flags are `SetZN` of it (R13). -/
theorem exec_of_loadX {i : Instr} {s : State} {r : Byte} (hexec : exec i s = .next (s.loadX r)) :
    ∃ p', exec i s = .next { s with x := r, p := p' } ∧
      ∀ k, k < 8 →
        p'.getLsbD k = if k = 7 then r.getLsbD 7 else if k = 1 then decide (r = 0) else s.p.getLsbD k :=
  ⟨setZN r s.p, hexec, getLsbD_setZN r s.p⟩

theorem instrByteAddrs_one (a : Addr) : instrByteAddrs a 1 = [a] :=
  congrArg (fun first => [first]) (BitVec.add_zero a)

/-- A step at a byte whose mode is implied reads that byte alone (R118). -/
theorem stepReads_of_implied {s : State} {op : Operation} (hrun : s.run = .running)
    (hentry : opcodeTable (s.readByte s.pc) = some (.imp, op)) : stepReads s = [s.pc] := by
  obtain ⟨i, hfetch, -, hlength, hea, -⟩ := fetch_resolves hentry rfl
  rw [stepReads_of_ea_none hrun hfetch hea, hlength]
  exact instrByteAddrs_one s.pc

/-- Settles O12: INX puts X + 1 in X, and its opcode byte has the implied mode. -/
theorem inxIncrementsX : Obligations.InxIncrementsX := by
  refine ⟨opcodeTable_iff_mem_of_perm (by decide), fun s => ?effect, fun s hrun hbyte => ?reads⟩
  case effect =>
    obtain ⟨p', hexec, hflags⟩ := exec_of_loadX (i := .inx) (s := s) (r := s.x + 1) rfl
    exact ⟨s.x + 1, p', hexec, BitVec.toNat_add s.x 1, hflags⟩
  case reads =>
    have hentry : opcodeTable (s.readByte s.pc) = some (.imp, .inx) := hbyte ▸ rfl
    exact stepReads_of_implied hrun hentry

/-- Settles O14: TAX puts A in X. -/
theorem taxTransfersAToX : Obligations.TaxTransfersAToX := by
  refine ⟨opcodeTable_iff_mem_of_perm (by decide), fun s => ?effect⟩
  obtain ⟨p', hexec, hflags⟩ := exec_of_loadX (i := .tax) (s := s) (r := s.a) rfl
  exact ⟨s.a, p', hexec, rfl, hflags⟩

end Sys2Proof.Proofs
end

section
/-! Control transfer: spec/44_control.md (R200, R201). -/

namespace Sys2Proof.Proofs
open Sys2Proof.Machine

/-- Adding the sign-extended displacement moves an address by -128 to 127, modulo 65536. -/
theorem add_sext16_toNat (pc : Addr) (d : Byte) :
    ((pc + sext16 d).toNat : Int) = ((pc.toNat : Int) + d.toInt) % 65536 := by
  rw [BitVec.toNat_add, Int.natCast_emod, Nat.cast_add, sext16_toNat_eq_toInt_emod]
  exact Int.add_emod_emod ..

theorem exec_bne_of_z_set (d : Byte) {s : State} (hz : s.p.getLsbD 1 = true) : exec (.bne d) s = .next s := by
  rw [exec_eq_effect]
  exact congrArg _ (if_pos hz)

theorem exec_bne_of_z_clear (d : Byte) {s : State} (hz : s.p.getLsbD 1 = false) :
    exec (.bne d) s = .next (s.setPc (s.pc + sext16 d)) := by
  rw [exec_eq_effect]
  exact congrArg _ (if_neg (Bool.eq_false_iff.1 hz))

/-- Both branches of BNE as one move of PC: by 0 when Z is set, by the signed displacement when it is clear. -/
theorem exec_bne_moves_pc (d : Byte) (s : State) :
    ∃ pc', exec (.bne d) s = .next { s with pc := pc' } ∧
      (pc'.toNat : Int) = ((s.pc.toNat : Int) + if s.p.getLsbD 1 then 0 else d.toInt) % 65536 := by
  cases hz : s.p.getLsbD 1 with
  | true =>
    have hpc := s.pc.isLt
    refine ⟨s.pc, exec_bne_of_z_set d hz, ?_⟩
    rw [if_pos rfl]
    omega
  | false => exact ⟨s.pc + sext16 d, exec_bne_of_z_clear d hz, add_sext16_toNat s.pc d⟩

/-- A fetch at the opcode byte of BNE takes the byte after it as the displacement and consumes both. -/
theorem fetchInstr_bne {s : State} (hbyte : s.readByte s.pc = 0xD0) :
    fetchInstr s = .instr (.bne (s.readByte (s.pc + 1))) (s.skip 2) := by
  have hentry : opcodeTable (s.readByte s.pc) = some (.rel, .bne) := hbyte ▸ rfl
  obtain ⟨i, hop, hoperand, hfetch⟩ := fetch_operand hentry
  have hi : some i = some (.bne (s.readByte (s.pc + 1))) := by
    rw [← i.ofParts_pieces, hop, hoperand]
    rfl
  exact Option.some.inj hi ▸ hfetch

theorem step_of_fetch {s t : State} {i : Instr} (hrun : s.run = .running) (hfetch : fetchInstr s = .instr i t) :
    step s = exec i t := by
  simp only [step, hrun, hfetch, runFetched]

/-- Consuming bytes and then moving by a signed distance wraps once, at the end. -/
theorem skip_pc_toNat_add_emod (s : State) (k : Nat) (d : Int) :
    (((s.skip k).pc.toNat : Int) + d) % 65536 = ((s.pc.toNat : Int) + k + d) % 65536 := by
  simp only [State.skip_pc, BitVec.toNat_add, BitVec.toNat_ofNat]
  omega

/-- Settles O15: the step is `exec` past the two bytes of the branch, whose own sum and that of the fetch wrap
together. -/
theorem bneBranchesOnZeroClear : Obligations.BneBranchesOnZeroClear := by
  refine ⟨opcodeTable_iff_mem_of_perm (by decide), fun d _ hz => exec_bne_of_z_set d hz, ?taken, ?step⟩
  case taken => exact fun d s hz => ⟨_, exec_bne_of_z_clear d hz, add_sext16_toNat s.pc d⟩
  case step =>
    intro s hrun hbyte
    obtain ⟨pc', hexec, hpc⟩ := exec_bne_moves_pc (s.readByte (s.pc + 1)) (s.skip 2)
    refine ⟨pc', (step_of_fetch hrun (fetchInstr_bne hbyte)).trans hexec, ?_⟩
    exact hpc.trans (skip_pc_toNat_add_emod s 2 _)

/-- Settles O16: in both modes the resolver gives JMP an address, and the operation wants no value and stores none. -/
theorem jmpSetsPcToEffectiveAddress : Obligations.JmpSetsPcToEffectiveAddress := by
  refine ⟨opcodeTable_iff_mem_of_perm (by decide), fun i s hop => ⟨?next, ?noRead, ?noWrite⟩⟩
  case next =>
    obtain ⟨ea, hea⟩ := effectiveAddress_isSome (.inr (.inr (.inr hop))) s
    refine ⟨ea, hea, ?_⟩
    rw [exec_eq_effect, hop, hea]
    rfl
  case noRead =>
    rw [operandReads, hop]
    rfl
  case noWrite =>
    rw [instrWrites, hop]
    rfl

end Sys2Proof.Proofs
end

section
/-! Faults: spec/60_exceptions.md section 1 (R221). -/

namespace Sys2Proof.Proofs
open Sys2Proof.Machine

/-- BRK alone writes RUN, and what it writes is Halted. -/
theorem effect_run (op : Operation) (v : Byte) (ea : Addr) (s : State) :
    (effect op v ea s).run = if op = .brk then .halted else s.run := by
  split
  next hbrk => rw [hbrk, effect, State.setRun_run]
  next hbrk =>
    obtain ⟨-, -, -, -, hrun, -⟩ := effect_frame op v ea s
    exact hrun hbrk

/-- No instruction enters Faulted: it ends Halted or in the RUN it started in. -/
theorem exec_keeps_not_faulted (i : Instr) {s : State} (hs : s.run ≠ .faulted) :
    ∃ t, exec i s = .next t ∧ t.run ≠ .faulted := by
  refine ⟨_, exec_eq_effect i s, ?_⟩
  rw [effect_run]
  split
  · decide
  · exact hs

/-- The byte of the halt sentinel has a table entry, so an undefined byte is not 0x00. -/
theorem ne_zero_of_opcodeTable_none {b : Byte} (h : opcodeTable b = none) : b ≠ 0x00 := by
  rintro rfl
  cases h

/-- Settles O38: of the two things a Running step can do, fault entry writes the latches, and a decoded instruction does
not enter Faulted. -/
theorem undefinedOpcodeFaultsOnFetch : Obligations.UndefinedOpcodeFaultsOnFetch := by
  refine ⟨fun s hrun => ?step, fun i _ => exec_keeps_not_faulted i⟩
  rcases step_cases s with ⟨hstopped, -⟩ | ⟨-, hnone, hstep⟩ | ⟨-, i, -, hsome, -, -, hstep⟩
  · exact absurd hrun hstopped
  · exact ⟨_, hstep, iff_of_true rfl ⟨ne_zero_of_opcodeTable_none hnone, hnone⟩, fun _ => ⟨rfl, rfl, rfl⟩⟩
  · have hskip : (s.skip i.length).run ≠ .faulted := by
      rw [State.skip_run, hrun]
      decide
    obtain ⟨t, hexec, ht⟩ := exec_keeps_not_faulted i hskip
    refine ⟨t, hstep.trans hexec, iff_of_false ht fun ⟨_, hnone⟩ => ?_, fun hfaulted => absurd hfaulted ht⟩
    rw [hsome] at hnone
    cases hnone

end Sys2Proof.Proofs
end

section
/-! The encoder against the decoder, and the opcode map: spec/30_encoding.md sections 1, 3 and 4. -/

namespace Sys2Proof.Proofs
open Sys2Proof.Machine

/-- The catalog matrix and the numeric opcode map agree at every instruction. -/
theorem opcodeTable_opcode (i : Instr) : opcodeTable i.opcode = some (i.mode, i.operation) := by
  cases i <;> rfl

/-- The decoder takes an encoding off the front of a list and leaves what follows. -/
theorem decode_encode (i : Instr) (rest : List Byte) : decode (encode i ++ rest) = .ok i rest := by
  obtain ⟨b1, b2, htake, hassemble⟩ := takeOperandBytes_bytes i.operand rest
  change takeOperandBytes i.mode.operandBytes _ = _ at htake
  change Operand.ofBytes i.mode b1 b2 = _ at hassemble
  simp only [encode, List.cons_append, decode, opcodeTable_opcode, htake, hassemble, Instr.ofParts_pieces]

/-- Settles O30: the table finds the opcode byte, and the operand bytes assemble to the operand they came from. -/
theorem decodeOfEncodeIsIdentity : Obligations.DecodeOfEncodeIsIdentity := fun i rest =>
  ⟨i.wellFormed_true, decode_encode i rest⟩

/-- Settles O31: the table gives each pair of a mode and an operation one byte, and the bytes after it are the
operand's. -/
theorem encodeOfDecodeIsIdentity : Obligations.EncodeOfDecodeIsIdentity := by
  intro bs i rest h
  obtain ⟨b, tail, rfl, htable, rfl⟩ := decode_ok h
  rw [opcode_of_table htable]
  rfl

/-- Settles O35: each word is the encoding of its instruction. -/
theorem sampleWordsDecode : Obligations.SampleWordsDecode :=
  ⟨decode_encode (.ldaImm 0x80) [], decode_encode (.ldxZpy 0xFF) [], decode_encode (.ldyAbsx 0x0400) [],
    decode_encode (.staIndy 0x20) [], decode_encode (.stxZp 0x10) [], decode_encode (.styAbs 0x1234) [],
    decode_encode (.adcIndx 0x10) [], decode_encode (.cmpAbsy 0x0200) [], decode_encode (.cpxImm 0x05) [],
    decode_encode (.cpyZp 0x10) [], decode_encode .inx [], decode_encode .dex [], decode_encode .tax [],
    decode_encode (.bne 0xFB) [], decode_encode (.jmpInd 0x0200) [], decode_encode .brk []⟩

/-- The numbers of the bytes that the catalog defines. -/
def definedNumbers : List Nat := catalog.map fun e => e.opcode.toNat

theorem opcodeTable_isSome_iff (b : Byte) : (opcodeTable b).isSome = true ↔ b.toNat ∈ definedNumbers := by
  simp only [opcodeTable, Option.isSome_map, List.find?_isSome, beq_iff_eq, definedNumbers, List.mem_map,
    BitVec.toNat_inj]

/-- The bytes with a table entry are those of the catalog's entries, which are distinct. -/
theorem range_filter_isSome_perm :
    ((List.range 256).filter fun n => (opcodeTable (BitVec.ofNat 8 n)).isSome).Perm definedNumbers := by
  have hnodup : definedNumbers.Nodup := by decide
  have hlt : ∀ n ∈ definedNumbers, n < 256 := by decide
  refine (List.perm_ext_iff_of_nodup (List.nodup_range.filter _) hnodup).2 fun n => ?_
  rw [List.mem_filter, List.mem_range, opcodeTable_isSome_iff, BitVec.toNat_ofNat]
  constructor
  · rintro ⟨hn, hmem⟩
    rwa [Nat.mod_eq_of_lt hn] at hmem
  · intro hmem
    have hn := hlt n hmem
    exact ⟨hn, by rwa [Nat.mod_eq_of_lt hn]⟩

/-- Settles O33: as many bytes are defined as the catalog has entries, and those are counted by mode and by length. -/
theorem opcodeTableHasSixtyEntries : Obligations.OpcodeTableHasSixtyEntries :=
  ⟨by decide, range_filter_isSome_perm.length_eq, by decide, by decide⟩

/-- Settles O34: the listed ranges are checked against the numbers of the catalog's bytes. -/
theorem undefinedBytesAreTheListedRanges : Obligations.UndefinedBytesAreTheListedRanges := by
  refine ⟨rfl, ?_⟩
  simp only [← Option.not_isSome_iff_eq_none, opcodeTable_isSome_iff]
  decide

end Sys2Proof.Proofs
end

section
/-! The invariant of the machine's states, kept by a step and by every host request: spec/10_state.md section 5,
spec/60_exceptions.md section 1, spec/70_reset_and_hazards.md section 5. -/

namespace Sys2Proof.Proofs
open Sys2Proof.Machine

/-- Outside Faulted the latches agree with RUN when they hold their reset values. -/
theorem latchesAgree_of_not_faulted {s : State} (h : s.run ≠ .faulted) :
    s.latchesAgree = true ↔ s.faultKind = .none ∧ s.faultOpcode = 0x00 ∧ s.faultAddr = 0x0000 := by
  cases hr : s.run with
  | faulted => exact absurd hr h
  | running | halted => simp [State.latchesAgree, hr, and_assoc]

/-- An operation writes no latch and does not enter Faulted, so the latches agree with RUN after it. -/
theorem effect_latchesAgree (op : Operation) (v : Byte) (ea : Addr) {s : State} (hrun : s.run ≠ .faulted)
    (h : s.latchesAgree = true) : (effect op v ea s).latchesAgree = true := by
  have hrun' : (effect op v ea s).run ≠ .faulted := by
    rw [effect_run]
    split
    · decide
    · exact hrun
  obtain ⟨-, hkind, hopcode, haddr, -⟩ := effect_frame op v ea s
  rw [latchesAgree_of_not_faulted hrun', hkind, hopcode, haddr]
  exact (latchesAgree_of_not_faulted hrun).1 h

/-- Settles O55: of the things a step can do, fault entry latches a byte without a table entry, and an operation keeps
both halves of the invariant. -/
theorem stepKeepsInvariant : Obligations.StepKeepsInvariant := by
  rintro s t ⟨hwf, hlatches⟩ hstep
  rcases step_cases s with ⟨-, h⟩ | ⟨-, hnone, h⟩ | ⟨hrun, i, -, -, -, -, h⟩
  case inl =>
    cases h.symm.trans hstep
    exact ⟨hwf, hlatches⟩
  case inr.inl =>
    cases h.symm.trans hstep
    exact ⟨hwf, by simp [State.latchesAgree, hnone]⟩
  case inr.inr =>
    cases (h.trans (exec_eq_effect _ _)).symm.trans hstep
    have hskip : (s.skip i.length).run ≠ .faulted := by
      rw [State.skip_run, hrun]
      decide
    exact ⟨effect_wf _ _ _ hwf, effect_latchesAgree _ _ _ hskip hlatches⟩

theorem resetWith_inv (pc : Addr) (p : Byte) : (State.resetWith pc p).Inv := ⟨rfl, rfl⟩

/-- Settles O54: after reset no cell is listed, RUN is Running and the latches hold their reset values. -/
theorem resetStateMeetsInvariant : Obligations.ResetStateMeetsInvariant :=
  ⟨resetWith_inv, resetWith_inv _ _⟩

/-- A register write of the host touches neither memory nor RUN nor a latch. -/
theorem regWrite_inv {s : State} (h : s.Inv) (w : RegWrite) : (s.regWrite w).Inv := by
  cases w <;> exact h

theorem serve_inv (pc : Addr) (p : Byte) {s : State} (h : s.Inv) (r : HostRequest) : (s.serve pc p r).Inv := by
  cases r with
  | reset => exact resetWith_inv pc p
  | step => exact stepKeepsInvariant s _ h (step_eq_stepped s)
  | memWrite a v => exact ⟨State.writeByte_wf h.1 a v, h.2⟩
  | regWrite w => exact regWrite_inv h w

theorem serveAll_inv (pc : Addr) (p : Byte) {s : State} (h : s.Inv) (rs : List HostRequest) :
    (s.serveAll pc p rs).Inv := by
  induction rs generalizing s with
  | nil => exact h
  | cons r rs ih => exact ih (serve_inv pc p h r)

/-- Settles O56: the invariant holds at reset and every request keeps it. -/
theorem hostRequestsKeepInvariant : Obligations.HostRequestsKeepInvariant := fun pc p _ rs h =>
  ⟨serveAll_inv pc p h rs, serveAll_inv pc p (resetWith_inv pc p) rs⟩

end Sys2Proof.Proofs
end

section
/-! Stopped states, and `Run`: spec/60_exceptions.md section 1 (R224), spec/40_sequencer_and_modes.md section 1
(R111, R112). -/

namespace Sys2Proof.Proofs
open Sys2Proof.Machine

/-- Settles O41: outside Running a step and its access record look at nothing but RUN. -/
theorem stoppedStepChangesNothing : Obligations.StoppedStepChangesNothing := by
  rintro s (hrun | hrun) <;> simp only [step, stepReads, stepWrites, hrun, and_self]

theorem run_stopped {s : State} (h : s.run ≠ .running) : s.run = .halted ∨ s.run = .faulted := by
  cases hr : s.run with
  | running => exact absurd hr h
  | halted => exact .inl rfl
  | faulted => exact .inr rfl

theorem step_of_stopped {s : State} (h : s.run ≠ .running) : step s = .next s := by
  obtain ⟨hstep, -⟩ := stoppedStepChangesNothing s (run_stopped h)
  exact hstep

theorem stepped_of_stopped {s : State} (h : s.run ≠ .running) : s.stepped = s :=
  State.stepped_of_next (step_of_stopped h)

theorem stepMany_of_stopped {s : State} (h : s.run ≠ .running) (n : Nat) : s.stepMany n = s := by
  induction n with
  | zero => rfl
  | succ n ih => rw [State.stepMany, stepped_of_stopped h, ih]

/-- How the machine stopped, if it did: RUN and the three latches. -/
def stopRecord (s : State) : RunState × FaultKind × Byte × Addr :=
  (s.run, s.faultKind, s.faultOpcode, s.faultAddr)

/-- No request but a reset changes how a stopped machine stopped. -/
theorem stopRecord_serve (pc : Addr) (p : Byte) {s : State} {r : HostRequest} (hrun : s.run ≠ .running)
    (hr : r ≠ .reset) : stopRecord (s.serve pc p r) = stopRecord s := by
  cases r with
  | reset => exact absurd rfl hr
  | step => exact congrArg stopRecord (stepped_of_stopped hrun)
  | memWrite a v => rfl
  | regWrite w => cases w <;> rfl

theorem stopRecord_serveAll (pc : Addr) (p : Byte) {s : State} {rs : List HostRequest} (hrun : s.run ≠ .running)
    (hrs : HostRequest.reset ∉ rs) : stopRecord (s.serveAll pc p rs) = stopRecord s := by
  induction rs generalizing s with
  | nil => rfl
  | cons r rs ih =>
    obtain ⟨hr, hrs⟩ := List.ne_and_not_mem_of_not_mem_cons hrs
    have hserve := stopRecord_serve pc p hrun hr.symm
    have hrun' : (s.serve pc p r).run = s.run := congrArg Prod.fst hserve
    exact (ih (hrun'.trans_ne hrun) hrs).trans hserve

/-- Settles O57: `stopRecord_serveAll`, read field by field. -/
theorem onlyResetLeavesTerminalStates : Obligations.OnlyResetLeavesTerminalStates := by
  refine fun pc p s rs hrun => ⟨fun hrs => ?_, rfl⟩
  simpa only [stopRecord, Prod.mk.injEq] using stopRecord_serveAll pc p hrun hrs

theorem runReturns_self {s : State} (hrun : s.run ≠ .running) : s.RunReturns s :=
  ⟨0, rfl, hrun, fun k hk => absurd hk k.not_lt_zero⟩

/-- A run from a Running state is a step and the run from there. -/
theorem runReturns_of_stepped {s t : State} (hrun : s.run = .running) (h : s.stepped.RunReturns t) :
    s.RunReturns t := by
  obtain ⟨n, hn, hstop, hbefore⟩ := h
  refine ⟨n + 1, hn, hstop, fun k hk => ?_⟩
  cases k with
  | zero => exact hrun
  | succ k => exact hbefore k (Nat.lt_of_succ_lt_succ hk)

theorem runWithin_of_stopped {s : State} (hrun : s.run ≠ .running) (n : Nat) : s.runWithin n = some s := by
  cases n <;> exact if_neg hrun

theorem runWithin_succ_of_running {s : State} (hrun : s.run = .running) (n : Nat) :
    s.runWithin (n + 1) = s.stepped.runWithin n := if_pos hrun

/-- What a bounded run answers, the run returns. -/
theorem runReturns_of_runWithin {s t : State} {n : Nat} (h : s.runWithin n = some t) : s.RunReturns t := by
  induction n generalizing s with
  | zero =>
    have hrun : s.run ≠ .running := fun hrun => by
      rw [State.runWithin, if_pos hrun] at h
      cases h
    cases (runWithin_of_stopped hrun 0).symm.trans h
    exact runReturns_self hrun
  | succ n ih =>
    by_cases hrun : s.run = .running
    · exact runReturns_of_stepped hrun (ih ((runWithin_succ_of_running hrun n).symm.trans h))
    · cases (runWithin_of_stopped hrun (n + 1)).symm.trans h
      exact runReturns_self hrun

/-- A run that ends after n steps is found by the bounded run with the bound n. -/
theorem runWithin_of_stepMany {s : State} {n : Nat} (hstop : (s.stepMany n).run ≠ .running)
    (hbefore : ∀ k, k < n → (s.stepMany k).run = .running) : s.runWithin n = some (s.stepMany n) := by
  induction n generalizing s with
  | zero => exact runWithin_of_stopped hstop 0
  | succ n ih =>
    have hrun : s.run = .running := hbefore 0 n.succ_pos
    rw [runWithin_succ_of_running hrun]
    exact ih hstop fun k hk => hbefore (k + 1) (Nat.succ_lt_succ hk)

/-- Two runs end after equally many steps: neither can still be Running when the other has stopped. -/
theorem runReturns_unique {s t t' : State} (h : s.RunReturns t) (h' : s.RunReturns t') : t' = t := by
  obtain ⟨n, rfl, hstop, hbefore⟩ := h
  obtain ⟨n', rfl, hstop', hbefore'⟩ := h'
  rcases Nat.lt_trichotomy n n' with hlt | rfl | hgt
  · exact absurd (hbefore' n hlt) hstop
  · rfl
  · exact absurd (hbefore n' hgt) hstop'

/-- Settles O60: a returned state is stopped and so stays, two runs from one state end alike, and the bounded run
unfolds as the run does. -/
theorem runReturnsOneTerminalState : Obligations.RunReturnsOneTerminalState := by
  refine fun s t => ⟨fun h => ?terminal, ?returns, fun ⟨_, h⟩ => runReturns_of_runWithin h⟩
  case terminal =>
    have hstop : t.run ≠ .running := let ⟨_, _, hstop, _⟩ := h; hstop
    exact ⟨run_stopped hstop, stepMany_of_stopped hstop, fun _ => runReturns_unique h⟩
  case returns =>
    rintro ⟨n, rfl, hstop, hbefore⟩
    exact ⟨n, runWithin_of_stepMany hstop hbefore⟩

end Sys2Proof.Proofs
end

section
/-! ADC (spec/42_add_compare.md R171), the remaining stores (spec/41_load_store.md R154, R155), DEX
(spec/43_register_ops.md R191), and the round trip of a store and a load. -/

namespace Sys2Proof.Proofs
open Sys2Proof.Machine

/-- Settles O5: STX is the store whose byte is X. -/
theorem stxStoresRegister : Obligations.StxStoresRegister :=
  ⟨opcodeTable_iff_mem_of_perm (by decide), fun i s hop hm => exec_store (congrArg (storedByte · s) hop) hm⟩

/-- Settles O6: STY is the store whose byte is Y. -/
theorem styStoresRegister : Obligations.StyStoresRegister :=
  ⟨opcodeTable_iff_mem_of_perm (by decide), fun i s hop hm => exec_store (congrArg (storedByte · s) hop) hm⟩

/-- Settles O29: the value instruction reads the byte at its effective address, which the store wrote. -/
theorem storeThenLoadRoundTrips : Obligations.StoreThenLoadRoundTrips := by
  intro i j s t a v hstore hm hea hexec hea' hwants
  obtain ⟨ea, m', hstored, -, hnext, -, hread, -⟩ := exec_store hstore hm
  cases hnext.symm.trans hexec
  cases hstored.symm.trans hea
  rw [operandValue_of_ea hea' hwants]
  exact congrArg some hread

/-- ADC works on the operand value, in every mode. -/
theorem exec_adc {i : Instr} (hop : i.operation = .adc) (s : State) :
    ∃ v, operandValue i s = some v ∧ exec i s = .next (s.addToA v) := by
  obtain ⟨v, _, hvalue, hexec⟩ := exec_of_wantsValue hop rfl s
  exact ⟨v, hvalue, hexec⟩

/-- Settles O7: the model's sum and flags of ADC; that V is listed before Z makes no difference to any bit. -/
theorem adcAddsWithCarry : Obligations.AdcAddsWithCarry := by
  refine ⟨opcodeTable_iff_mem_of_perm (by decide), fun i s hop => ?_⟩
  obtain ⟨v, hvalue, hexec⟩ := exec_adc hop s
  refine ⟨v, _, _, hvalue, hexec, BitVec.toNat_ofNat .., fun k hk => ?_⟩
  rw [getLsbD_adcFlags _ _ _ _ hk]
  by_cases h6 : k = 6
  · subst h6
    rfl
  · simp only [if_neg h6]
    rfl

theorem getLsbD_seven (b : Byte) : b.getLsbD 7 = decide (128 ≤ b.toNat) :=
  BitVec.msb_eq_decide b

/-- The condition of R171 on bit 7 of the addends and of the result says that the signed sum leaves its range. -/
theorem adcOverflow_iff_signed_range (a v : Byte) (c : Bool) :
    adcOverflow a v c = true ↔
      a.toInt + v.toInt + (c.toNat : Int) < -128 ∨ 127 < a.toInt + v.toInt + (c.toNat : Int) := by
  have ha := a.isLt
  have hv := v.isLt
  have hc := c.toNat_le
  have hsum : (adcResult a v c).toNat = (a.toNat + v.toNat + c.toNat) % 256 := BitVec.toNat_ofNat ..
  simp only [adcOverflow, getLsbD_seven, hsum, BitVec.toInt_eq_toNat_cond, Bool.and_eq_true, beq_iff_eq, bne_iff_ne,
    ne_eq, decide_eq_decide]
  omega

/-- Settles O8: bits 6 and 0 of the flags of ADC. -/
theorem adcOverflowIsSignedRange : Obligations.AdcOverflowIsSignedRange := by
  intro i s hop
  obtain ⟨v, hvalue, hexec⟩ := exec_adc hop s
  refine ⟨v, _, hvalue, hexec, ?overflow, ?carry⟩
  case overflow =>
    rw [State.addToA_p, getLsbD_adcFlags _ _ _ 6 (by decide)]
    exact adcOverflow_iff_signed_range s.a v _
  case carry =>
    rw [State.addToA_p, getLsbD_adcFlags _ _ _ 0 (by decide)]
    exact decide_eq_true_iff

/-- Settles O13: DEX puts X - 1 in X, and its opcode byte has the implied mode. -/
theorem dexDecrementsX : Obligations.DexDecrementsX := by
  refine ⟨opcodeTable_iff_mem_of_perm (by decide), fun s => ?effect, fun s hrun hbyte => ?reads⟩
  case effect =>
    obtain ⟨p', hexec, hflags⟩ := exec_of_loadX (i := .dex) (s := s) (r := s.x - 1) rfl
    exact ⟨s.x - 1, p', hexec, byte_sub_toNat s.x 1, hflags⟩
  case reads =>
    have hentry : opcodeTable (s.readByte s.pc) = some (.imp, .dex) := hbyte ▸ rfl
    exact stepReads_of_implied hrun hentry

end Sys2Proof.Proofs
end

section
/-! The indexed and indirect addressing modes: spec/40_sequencer_and_modes.md section 2 (R125 to R129). -/

namespace Sys2Proof.Proofs
open Sys2Proof.Machine

/-- An index is added to an address modulo 65536, with the carry into the high byte. -/
theorem add_zext16_toNat (w : Addr) (b : Byte) : (w + zext16 b).toNat = (w.toNat + b.toNat) % 65536 := by
  rw [BitVec.toNat_add, zext16_toNat]

theorem word16_add_zext16_toNat (lo hi b : Byte) :
    (word16 lo hi + zext16 b).toNat = (hi.toNat * 256 + lo.toNat + b.toNat) % 65536 := by
  rw [add_zext16_toNat, word16_toNat]

/-- Settles O22: the little-endian word and an index register. -/
theorem absoluteIndexedModes : Obligations.AbsoluteIndexedModes :=
  ⟨fun _ _ _ hentry ht => fetch_memory_mode hentry ht rfl (word16_add_zext16_toNat _ _ _),
    fun _ _ _ hentry ht => fetch_memory_mode hentry ht rfl (word16_add_zext16_toNat _ _ _)⟩

/-- A pointer's target is the little-endian value of the bytes at its two addresses. -/
theorem readWord_toNat (s : State) {lo hi : Addr} {l h : Nat} (hlo : lo.toNat = l) (hhi : hi.toNat = h) :
    (s.readWord lo hi).toNat = (s.mem.read h).toNat * 256 + (s.mem.read l).toNat := by
  rw [State.readWord, word16_toNat, State.readByte, State.readByte, hlo, hhi]

theorem operation_of_supports_ind {op : Operation} (h : op.modes.contains .ind = true) : op = .jmp := by
  revert h
  cases op <;> decide

/-- Settles O23: JMP alone supports the mode, and it wants no value. -/
theorem indirectMode : Obligations.IndirectMode := by
  intro s t op hentry ht
  obtain rfl := operation_of_supports_ind (opcodeTable_supported hentry)
  have hpointer := word16_toNat (s.readByte (s.pc + 1)) (s.readByte (s.pc + 2))
  have hnext := BitVec.toNat_add (word16 (s.readByte (s.pc + 1)) (s.readByte (s.pc + 2))) 1
  rw [hpointer] at hnext
  obtain ⟨i, ea, hfetch, hop, hea, htarget, hvalue⟩ :=
    fetch_memory_mode hentry ht rfl (readWord_toNat s hpointer hnext)
  exact ⟨rfl, i, ea, hfetch, hop, hvalue, hea, htarget⟩

/-- The target of a zero-page pointer, whose high byte lies where `zpNext_toNat` says. -/
theorem readWord_zpNext_toNat (s : State) (b : Byte) :
    (s.readWord (zext16 b) (zpNext b)).toNat =
      (s.mem.read (if b.toNat = 255 then (if Config.zpPtrHiWrap then 0 else 256) else b.toNat + 1)).toNat * 256 +
        (s.mem.read b.toNat).toNat :=
  readWord_toNat s (zext16_toNat b) (zpNext_toNat b)

/-- Settles O24: X is added to the pointer inside the zero page. -/
theorem indexedIndirectMode : Obligations.IndexedIndirectMode := by
  intro s t op ptr hentry ht hptr
  have hpointer : (ptrIndx (s.readByte (s.pc + 1)) s).toNat = ptr := (BitVec.toNat_add ..).trans hptr.symm
  have htarget := readWord_zpNext_toNat s (ptrIndx (s.readByte (s.pc + 1)) s)
  rw [hpointer] at htarget
  exact fetch_memory_mode hentry ht rfl htarget

/-- Settles O25: Y is added to the target of the pointer. -/
theorem indirectIndexedMode : Obligations.IndirectIndexedMode := by
  rintro s t op ptr hentry ht rfl
  refine fetch_memory_mode hentry ht rfl ?_
  rw [eaIndy, add_zext16_toNat, readWord_zpNext_toNat]

end Sys2Proof.Proofs
end

section
/-! What a step does, by the byte at PC: spec/40_sequencer_and_modes.md (R110, R113, R115, R132) and
spec/60_exceptions.md section 1. -/

namespace Sys2Proof.Proofs
open Sys2Proof.Machine

/-- Settles O42: both are equations of the model. -/
theorem everyStepAnswersNext : Obligations.EveryStepAnswersNext :=
  ⟨fun s => ⟨s.stepped, step_eq_stepped s⟩, fun i s => ⟨_, exec_eq_effect i s⟩⟩

/-- Settles O36: bytes that decode start with a byte that has a table entry, so the step is of the third kind. -/
theorem stepRunsDecodedInstruction : Obligations.StepRunsDecodedInstruction := by
  intro s i rest hrun hdecode
  rcases step_cases s with ⟨hstopped, -⟩ | ⟨-, hnone, -⟩ | ⟨-, j, _, -, hdecode', -, hstep⟩
  · exact absurd hrun hstopped
  · cases hnone.symm.trans (opcodeTable_of_decode_cons hdecode)
  · cases hdecode'.symm.trans hdecode
    exact hstep

/-- Settles O39: a byte without an entry leaves a Running step fault entry alone. -/
theorem faultEntryIsPrecise : Obligations.FaultEntryIsPrecise := by
  intro s hrun hnone
  rcases step_cases s with ⟨hstopped, -⟩ | ⟨-, -, hstep⟩ | ⟨-, i, _, hsome, -⟩
  · exact absurd hrun hstopped
  · exact hstep
  · cases hnone.symm.trans hsome

/-- A Running step at a byte with a table entry executes an instruction of the entry's mode and operation, past it. -/
theorem step_of_table {s : State} {m : Mode} {op : Operation} (hrun : s.run = .running)
    (hentry : opcodeTable (s.readByte s.pc) = some (m, op)) :
    ∃ v ea, step s = .next (effect op v ea (s.skip m.length)) := by
  obtain ⟨i, hop, -, hfetch⟩ := fetch_operand hentry
  rw [step_of_fetch hrun hfetch, exec_eq_effect, hop]
  exact ⟨_, _, rfl⟩

/-- Settles O17: the step is the effect of BRK past one byte. -/
theorem brkHalts : Obligations.BrkHalts := by
  refine ⟨opcodeTable_iff_mem_of_perm (by decide), fun s => rfl, fun s hrun hbyte => ?_⟩
  have hentry : opcodeTable (s.readByte s.pc) = some (.imp, .brk) := hbyte ▸ rfl
  obtain ⟨_, _, hstep⟩ := step_of_table hrun hentry
  exact hstep

/-- Settles O53: every byte of memory is 0x00 at reset, so the step is that of BRK. -/
theorem freshMachineHaltsAtOnce : Obligations.FreshMachineHaltsAtOnce := by
  obtain ⟨-, -, hstep⟩ := brkHalts
  exact fun pc p => hstep (State.resetWith pc p) rfl rfl

/-- Settles O40: the table pairs an operation with modes it supports, so assembling never fails. -/
theorem modeMismatchIsUnreachable : Obligations.ModeMismatchIsUnreachable := by
  refine ⟨?pairs, ?fetch, ?step⟩
  case pairs =>
    intro b m op hentry b1 b2
    exact Option.isSome_iff_exists.2 (ofParts_opcodeTable hentry b1 b2)
  case fetch =>
    intro s op a0 t hfault
    rcases fetchInstr_cases s with ⟨-, h⟩ | ⟨_, _, -, -, h⟩ <;> cases h.symm.trans hfault
  case step =>
    intro s t hstep hkind
    rcases step_cases s with ⟨-, h⟩ | ⟨-, -, h⟩ | ⟨-, i, -, -, -, -, h⟩
    · cases h.symm.trans hstep
      exact hkind
    · cases h.symm.trans hstep
      cases hkind
    · cases (h.trans (exec_eq_effect _ _)).symm.trans hstep
      obtain ⟨-, hkept, -⟩ := effect_frame i.operation _ _ (s.skip i.length)
      exact hkept.symm.trans hkind

/-- Settles O43: the table entry of the byte says which branch, and BRK, which the byte 0x00 alone is, leaves
Running. -/
theorem stepOutcomeByPriority : Obligations.StepOutcomeByPriority := by
  intro s t hstep
  by_cases hrun : s.run = .running
  case neg =>
    cases (step_of_stopped hrun).symm.trans hstep
    rw [if_pos hrun]
  case pos =>
    rw [if_neg (not_not.2 hrun)]
    cases hentry : opcodeTable (s.readByte s.pc) with
    | none =>
      cases (faultEntryIsPrecise s hrun hentry).symm.trans hstep
      rw [if_neg (ne_zero_of_opcodeTable_none hentry), if_pos rfl]
      rfl
    | some e =>
      obtain ⟨v, ea, h⟩ := step_of_table hrun hentry
      cases h.symm.trans hstep
      rw [if_neg (Option.some_ne_none e), State.outcome, effect_run, State.skip_run, hrun]
      by_cases hzero : s.readByte s.pc = 0x00
      · rw [if_pos hzero, if_pos ((brk_iff_zero hentry).2 hzero)]
      · rw [if_neg hzero, if_neg (mt (brk_iff_zero hentry).1 hzero)]

/-- Settles O44: the fetch moves PC past the instruction, and the operation leaves PC and RUN alone. -/
theorem sequentialInstructionsAdvancePc : Obligations.SequentialInstructionsAdvancePc := by
  intro s m op hrun hentry hbne hjmp hbrk
  obtain ⟨v, ea, hstep⟩ := step_of_table hrun hentry
  obtain ⟨-, -, -, -, hkeepsRun, hkeepsPc, -⟩ := effect_frame op v ea (s.skip m.length)
  exact ⟨_, hstep, (hkeepsRun hbrk).trans hrun, hkeepsPc hbne hjmp⟩

/-- The word's three bytes, as `withFetchWord` places them. -/
theorem withFetchWord_eq (s : State) (nbits w : Nat) :
    ∃ b0 b1 b2, tableWordBytes nbits w = [b0, b1, b2] ∧ s.withFetchWord nbits w =
      (((s.setRun .running).writeByte s.pc b0).writeByte (s.pc + 1) b1).writeByte (s.pc + 2) b2 :=
  ⟨_, _, _, rfl, rfl⟩

theorem bytesAtPc_withFetchWord {s : State} (hm : s.mem.wf = true) (nbits w : Nat) :
    bytesAtPc (s.withFetchWord nbits w) = tableWordBytes nbits w := by
  obtain ⟨b0, b1, b2, hbytes, hplaced⟩ := withFetchWord_eq s nbits w
  have h01 : s.pc ≠ s.pc + 1 := by bv_omega
  have h02 : s.pc ≠ s.pc + 2 := by bv_omega
  have h12 : s.pc + 1 ≠ s.pc + 2 := by bv_omega
  have hm0 : (s.setRun .running).mem.wf = true := hm
  have hm1 := State.writeByte_wf hm0 s.pc b0
  have hm2 := State.writeByte_wf hm1 (s.pc + 1) b1
  rw [hbytes, hplaced, bytesAtPc]
  simp only [State.writeByte_pc, State.setRun_pc]
  rw [State.readByte_writeByte_other _ h02, State.readByte_writeByte_other _ h01, State.readByte_writeByte_other _ h12,
    State.readByte_writeByte_same hm2, State.readByte_writeByte_same hm1, State.readByte_writeByte_same hm0]

/-- A decoded table word is what its bytes decode to. -/
theorem decode_of_decodeTableWord {nbits w : Nat} {i : Instr} (h : decodeTableWord nbits w = some i) :
    ∃ rest, decode (tableWordBytes nbits w) = .ok i rest := by
  rw [decodeTableWord] at h
  split at h
  next hdecode =>
    cases h
    exact ⟨_, hdecode⟩
  next => cases h

/-- Settles O37: the placed bytes are those that the step fetches. -/
theorem placedWordIsNextInstruction : Obligations.PlacedWordIsNextInstruction := by
  intro s nbits w i hm hword
  obtain ⟨b0, b1, b2, -, hplaced⟩ := withFetchWord_eq s nbits w
  refine ⟨?step, _, hplaced, ?wf, ?frame⟩
  case step =>
    obtain ⟨rest, hdecode⟩ := decode_of_decodeTableWord hword
    have hpc : (s.withFetchWord nbits w).pc = s.pc := by rw [hplaced]; rfl
    have hrun : (s.withFetchWord nbits w).run = .running := by rw [hplaced]; rfl
    rw [← bytesAtPc_withFetchWord hm] at hdecode
    rw [stepRunsDecodedInstruction _ i rest hrun hdecode, hpc]
  case wf => exact Memory.write_wf (Memory.write_wf (Memory.write_wf hm _ _) _ _) _ _
  case frame =>
    intro a h0 h1 h2
    exact (State.readByte_writeByte_other _ h2 b2).trans
      ((State.readByte_writeByte_other _ h1 b1).trans (State.readByte_writeByte_other (s.setRun .running) h0 b0))

/-- Settles O52: the reset state, field by field; no cell of memory is listed. -/
theorem resetGivesTheResetState : Obligations.ResetGivesTheResetState := fun _ _ _ =>
  ⟨_, rfl, rfl, rfl, rfl, rfl, rfl, rfl, rfl, rfl, rfl, rfl, rfl, fun _ => rfl, _, _, rfl⟩

/-- Settles O59: each write is one field of the state, and each name reads one. -/
theorem hostRegisterPortReadsBack : Obligations.HostRegisterPortReadsBack := by
  intro s n v w
  have hmem : ∀ r, (s.regWrite r).mem = s.mem := fun r => by cases r <;> rfl
  cases n <;> exact ⟨rfl, rfl, rfl, rfl, rfl, rfl, hmem⟩

end Sys2Proof.Proofs
end

section
/-! Which operations write which registers and flags: spec/10_state.md sections 2 to 5 (R22 to R33). -/

namespace Sys2Proof.Proofs
open Sys2Proof.Machine

theorem effect_a (op : Operation) (v : Byte) (ea : Addr) (s : State) (h : op ∉ [Operation.lda, .adc]) :
    (effect op v ea s).a = s.a := by
  cases op with
  | lda | adc => simp at h
  | bne => rw [effect]; split <;> rfl
  | _ => rfl

theorem effect_x (op : Operation) (v : Byte) (ea : Addr) (s : State)
    (h : op ∉ [Operation.ldx, .inx, .dex, .tax]) : (effect op v ea s).x = s.x := by
  cases op with
  | ldx | inx | dex | tax => simp at h
  | bne => rw [effect]; split <;> rfl
  | _ => rfl

theorem effect_y (op : Operation) (v : Byte) (ea : Addr) (s : State) (h : op ≠ .ldy) :
    (effect op v ea s).y = s.y := by
  cases op with
  | ldy => exact absurd rfl h
  | bne => rw [effect]; split <;> rfl
  | _ => rfl

/-- Settles O48: the frame of each operation, field by field. -/
theorem registersChangeOnlyByTheirOperations : Obligations.RegistersChangeOnlyByTheirOperations := by
  intro i s
  refine ⟨_, exec_eq_effect i s, effect_a _ _ _ s, effect_x _ _ _ s, effect_y _ _ _ s, ?_⟩
  obtain ⟨hsp, hkind, hopcode, haddr, hrun, hpc, -⟩ :=
    effect_frame i.operation ((operandValue i s).getD 0) ((effectiveAddress i s).getD 0) s
  refine ⟨fun hop => ?_, hrun, hsp, hkind, hopcode, haddr⟩
  obtain ⟨hbne, hjmp⟩ : i.operation ≠ .bne ∧ i.operation ≠ .jmp := by simpa using hop
  exact hpc hbne hjmp

/-- The stores, the control transfers and BRK write no flag. -/
theorem effect_p_kept (op : Operation) (v : Byte) (ea : Addr) (s : State)
    (h : op ∈ [Operation.sta, .stx, .sty, .bne, .jmp, .brk]) : (effect op v ea s).p = s.p := by
  cases op with
  | sta | stx | sty | jmp | brk => rfl
  | bne => rw [effect]; split <;> rfl
  | _ => simp at h

/-- What an operation can do to P: keep it, `SetZN` of some byte, a compare's flags, or those of ADC. -/
theorem effect_p_cases (op : Operation) (v : Byte) (ea : Addr) (s : State) :
    (effect op v ea s).p = s.p ∨ (∃ r, (effect op v ea s).p = setZN r s.p) ∨
    (op ∈ [Operation.cmp, .cpx, .cpy] ∧ ∃ r, (effect op v ea s).p = compareFlags r v s.p) ∨
    (op = .adc ∧ (effect op v ea s).p = adcFlags s.a v s.p) := by
  cases op with
  | sta | stx | sty | bne | jmp | brk => exact .inl (effect_p_kept _ v ea s (by decide))
  | lda | ldx | ldy | inx | dex | tax => exact .inr (.inl ⟨_, rfl⟩)
  | cmp | cpx | cpy => exact .inr (.inr (.inl ⟨by decide, _, rfl⟩))
  | adc => exact .inr (.inr (.inr ⟨rfl, rfl⟩))

theorem effect_carry (op : Operation) (v : Byte) (ea : Addr) (s : State)
    (h : op ∉ [Operation.adc, .cmp, .cpx, .cpy]) : (effect op v ea s).p.getLsbD 0 = s.p.getLsbD 0 := by
  rcases effect_p_cases op v ea s with hp | ⟨r, hp⟩ | ⟨hop, -⟩ | ⟨rfl, -⟩
  · rw [hp]
  · rw [hp, getLsbD_setZN _ _ 0 (by decide)]
    rfl
  · exact absurd (List.mem_cons_of_mem _ hop) h
  · exact absurd List.mem_cons_self h

theorem effect_overflow (op : Operation) (v : Byte) (ea : Addr) (s : State) (h : op ≠ .adc) :
    (effect op v ea s).p.getLsbD 6 = s.p.getLsbD 6 := by
  rcases effect_p_cases op v ea s with hp | ⟨r, hp⟩ | ⟨-, r, hp⟩ | ⟨hop, -⟩
  · rw [hp]
  · rw [hp, getLsbD_setZN _ _ 6 (by decide)]
    rfl
  · rw [hp, getLsbD_compareFlags _ _ _ 6 (by decide)]
    rfl
  · exact absurd hop h

/-- Settles O47: the writers of each bit of P. -/
theorem flagsChangeOnlyByTheirOperations : Obligations.FlagsChangeOnlyByTheirOperations := fun i s =>
  ⟨_, exec_eq_effect i s, effect_carry _ _ _ s, effect_overflow _ _ _ s, effect_p_kept _ _ _ s,
    effect_reserved _ _ _ s⟩

end Sys2Proof.Proofs
end

section
/-! The access record of a step: spec/20_memory.md sections 2 and 3, spec/40_sequencer_and_modes.md section 1 (R117). -/

namespace Sys2Proof.Proofs
open Sys2Proof.Machine

/-- The record of a Running step that raises a fault: the opcode byte alone. -/
theorem access_of_undefined {s : State} (hrun : s.run = .running) (hnone : opcodeTable (s.readByte s.pc) = none) :
    stepReads s = [s.pc] ∧ stepWrites s = [] := by
  rcases fetchInstr_cases s with ⟨-, hfetch⟩ | ⟨i, _, hsome, -⟩
  · simp only [stepReads, stepWrites, hrun, hfetch, and_self]
  · cases hnone.symm.trans hsome

/-- Where there are two pointer reads, the address is what lies there, plus Y in the one mode that adds it after. -/
theorem ea_of_pointerReads {o : Operand} {s : State} {lo hi : Addr} (h : Operand.pointerReads o s = [lo, hi]) :
    Operand.ea o s =
      some (word16 (s.readByte lo) (s.readByte hi) + if o.mode = .indy then zext16 s.y else 0) := by
  cases o with
  | ind | indx =>
    cases h
    exact congrArg some (BitVec.add_zero _).symm
  | indy =>
    cases h
    rfl
  | _ => cases h

theorem pointerReads_length (o : Operand) (s : State) :
    (Operand.pointerReads o s).length = if o.mode = .ind ∨ o.mode = .indx ∨ o.mode = .indy then 2 else 0 := by
  cases o <;> rfl

/-- An operand byte is read where a value is wanted and is not in the instruction itself: among the operations that want
one, only the immediate and the relative mode have no effective address. -/
theorem operandReads_length (i : Instr) (s : State) :
    (operandReads i s).length =
      if Operation.wantsValue i.operation = true ∧ i.mode ≠ .imm ∧ i.mode ≠ .rel then 1 else 0 := by
  cases i <;> rfl

theorem ea_of_mem_operandReads {i : Instr} {s : State} {a : Addr} (h : a ∈ operandReads i s) :
    effectiveAddress i s = some a := by
  rw [operandReads] at h
  split at h
  · exact Option.mem_toList.1 h
  · cases h

/-- Settles O50: the record of the fetched instruction, part by part. -/
theorem readCountsByMode : Obligations.ReadCountsByMode := by
  refine fun s hrun => ⟨fun hnone => (access_of_undefined hrun hnone).1, fun m op hentry => ?_⟩
  obtain ⟨i, -, rfl, rfl, -, hfetch⟩ := fetch_of_table hentry
  exact ⟨i, _, _, _, hfetch, rfl, rfl, rfl, rfl, stepReads_of_fetch hrun hfetch, pointerReads_length _ _,
    operandReads_length _ _, fun _ _ => ea_of_pointerReads, fun _ => ea_of_mem_operandReads⟩

theorem instrWrites_length_le (i : Instr) (s : State) : (instrWrites i s).length ≤ 1 := by
  rw [instrWrites]
  split <;> simp

/-- Only a store has a write. -/
theorem isStore_of_instrWrites_ne_nil {i : Instr} {s : State} (h : instrWrites i s ≠ []) :
    i.operation = .sta ∨ i.operation = .stx ∨ i.operation = .sty := by
  cases hstore : storedByte i.operation s with
  | none =>
    rw [instrWrites, hstore] at h
    exact absurd rfl h
  | some v => exact (storedByte_eq_some hstore).imp And.left (Or.imp And.left And.left)

/-- A step touches no memory, or is the execution of a fetched instruction. -/
theorem step_writes_cases (s : State) :
    (stepWrites s = [] ∧ s.stepped.mem = s.mem) ∨
    ∃ i, s.run = .running ∧ opcodeTable (s.readByte s.pc) = some (i.mode, i.operation) ∧
      fetchInstr s = .instr i (s.skip i.length) := by
  by_cases hrun : s.run = .running
  case neg =>
    obtain ⟨hstep, -, hwrites⟩ := stoppedStepChangesNothing s (run_stopped hrun)
    exact .inl ⟨hwrites, congrArg State.mem (State.stepped_of_next hstep)⟩
  case pos =>
    rcases fetchInstr_cases s with ⟨hnone, -⟩ | ⟨i, -, hentry, -, hfetch⟩
    · obtain ⟨-, hwrites⟩ := access_of_undefined hrun hnone
      exact .inl ⟨hwrites, by rw [State.stepped_of_next (faultEntryIsPrecise s hrun hnone)]⟩
    · exact .inr ⟨i, hrun, hentry, hfetch⟩

/-- Memory after a step is memory before it with the recorded writes made. -/
theorem stepped_mem (s : State) : s.stepped.mem = s.mem.writeAll (stepWrites s) := by
  rcases step_writes_cases s with ⟨hwrites, hmem⟩ | ⟨i, hrun, -, hfetch⟩
  · rw [hwrites, hmem]
    rfl
  · rw [State.stepped_of_next ((step_of_fetch hrun hfetch).trans (exec_eq_effect _ _)), effect_mem,
      stepWrites_of_fetch hrun hfetch, State.skip_mem]

/-- Settles O49: the recorded writes are those of the fetched instruction, and only a store has one. -/
theorem stepMemoryIsItsWrites : Obligations.StepMemoryIsItsWrites := by
  intro s t hstep
  have hmem : t.mem = s.mem.writeAll (stepWrites s) := State.stepped_of_next hstep ▸ stepped_mem s
  have hother (a : Addr) (ha : a ∉ (stepWrites s).map Prod.fst) : t.mem.read a.toNat = s.mem.read a.toNat :=
    hmem ▸ Memory.read_writeAll_other s.mem _ a ha
  refine ⟨hmem, ?length, ?store, hother⟩
  case length =>
    rcases step_writes_cases s with ⟨hwrites, -⟩ | ⟨i, hrun, -, hfetch⟩
    · simp [hwrites]
    · rw [stepWrites_of_fetch hrun hfetch]
      exact instrWrites_length_le i _
  case store =>
    intro hne
    rcases step_writes_cases s with ⟨hwrites, -⟩ | ⟨i, hrun, hentry, hfetch⟩
    · exact absurd hwrites hne
    · rw [stepWrites_of_fetch hrun hfetch] at hne
      exact ⟨hrun, _, _, hentry, isStore_of_instrWrites_ne_nil hne⟩

end Sys2Proof.Proofs
end

section
/-! Two steps compared: what of the state a step depends on (spec/10_state.md sections 2 and 3, spec/20_memory.md
section 3). -/

namespace Sys2Proof.Proofs
open Sys2Proof.Machine

/-- A mode looks only at the operand bytes that it consumes. -/
theorem ofBytes_congr {m : Mode} {b1 b2 c1 c2 : Byte} (h1 : 1 < m.length → b1 = c1) (h2 : 2 < m.length → b2 = c2) :
    Operand.ofBytes m b1 b2 = Operand.ofBytes m c1 c2 := by
  cases m with
  | imp => rfl
  | imm | zp | zpx | zpy | indx | indy | rel =>
    rw [h1 (by decide)]
    rfl
  | abs | absx | absy | ind => rw [h1 (by decide), h2 (by decide)]

/-- Two states with the same bytes at PC, as many as the instruction has, fetch the same instruction. -/
theorem fetchInstr_congr {s s' : State} {i : Instr} {t : State} (hfetch : fetchInstr s = .instr i t)
    (hbytes : ∀ k, k < i.length →
      s'.readByte (s'.pc + BitVec.ofNat 16 k) = s.readByte (s.pc + BitVec.ofNat 16 k)) :
    fetchInstr s' = .instr i (s'.skip i.length) := by
  rcases fetchInstr_cases s with ⟨-, hfault⟩ | ⟨_, -, hentry, -, hinstr⟩
  case inl => cases hfault.symm.trans hfetch
  case inr =>
    cases hinstr.symm.trans hfetch
    have hopcode : s'.readByte s'.pc = s.readByte s.pc := by
      simpa using hbytes 0 (by rw [Instr.length, Mode.length]; omega)
    obtain ⟨j, hop, hoperand, hj⟩ := fetch_operand hentry
    cases hj.symm.trans hfetch
    obtain ⟨i', hop', hoperand', hi'⟩ := fetch_operand (s := s') (hopcode ▸ hentry)
    have hsame : i'.operand = i.operand := hoperand'.trans ((ofBytes_congr (hbytes 1) (hbytes 2)).trans hoperand.symm)
    have hi : some i' = some i := by rw [← i'.ofParts_pieces, ← i.ofParts_pieces, hop', hsame]
    exact Option.some.inj hi ▸ hi'

/-- Of two states that agree on PC and on the bytes that the first one's step reads, the first is stopped, or both are at
one undefined byte, or both fetch one instruction. -/
theorem fetch_alike {s s' : State} (hpc : s'.pc = s.pc)
    (hreads : ∀ a ∈ stepReads s, s'.readByte a = s.readByte a) :
    s.run ≠ .running ∨
    (s.run = .running ∧ opcodeTable (s.readByte s.pc) = none ∧ s'.readByte s'.pc = s.readByte s.pc) ∨
    (s.run = .running ∧ ∃ i, fetchInstr s = .instr i (s.skip i.length) ∧
      fetchInstr s' = .instr i (s'.skip i.length)) := by
  by_cases hrun : s.run = .running
  case neg => exact .inl hrun
  case pos =>
    refine .inr ?_
    rcases fetchInstr_cases s with ⟨hnone, -⟩ | ⟨i, -, -, -, hfetch⟩
    · obtain ⟨hread, -⟩ := access_of_undefined hrun hnone
      exact .inl ⟨hrun, hnone, hpc ▸ hreads s.pc (by rw [hread]; exact List.mem_singleton_self _)⟩
    · have hbytes (k : Nat) (hk : k < i.length) :
          s'.readByte (s'.pc + BitVec.ofNat 16 k) = s.readByte (s.pc + BitVec.ofNat 16 k) := by
        rw [hpc]
        refine hreads _ ?_
        rw [stepReads_of_fetch hrun hfetch, List.append_assoc]
        exact List.mem_append_left _ (List.mem_map.2 ⟨k, List.mem_range.2 hk, rfl⟩)
      exact .inr ⟨hrun, i, hfetch, fetchInstr_congr hfetch hbytes⟩

/-- Two states that differ in A, S, P or the latches alone both stay, both enter the fault, or both make the same
operation's effect, with the same operand value and address. -/
theorem step_alike {s s' : State} (hrun : s'.run = s.run) (hpc : s'.pc = s.pc) (hx : s'.x = s.x) (hy : s'.y = s.y)
    (hm : s'.mem = s.mem) :
    (step s = .next s ∧ step s' = .next s') ∨
    (step s = .next ((s.skip 1).raiseFault .undefinedOpcode (s.readByte s.pc) s.pc) ∧
      step s' = .next ((s'.skip 1).raiseFault .undefinedOpcode (s.readByte s.pc) s.pc)) ∨
    ∃ op v ea k, step s = .next (effect op v ea (s.skip k)) ∧ step s' = .next (effect op v ea (s'.skip k)) := by
  rcases fetch_alike hpc fun a _ => State.readByte_congr hm a with
    hstopped | ⟨hrunning, hnone, hbyte⟩ | ⟨hrunning, i, hfetch, hfetch'⟩
  case inl => exact .inl ⟨step_of_stopped hstopped, step_of_stopped (hrun ▸ hstopped)⟩
  case inr.inl =>
    have hstep' : step s' = .next ((s'.skip 1).raiseFault .undefinedOpcode (s'.readByte s'.pc) s'.pc) :=
      faultEntryIsPrecise s' (hrun.trans hrunning) (hbyte ▸ hnone)
    rw [hbyte, hpc] at hstep'
    exact .inr (.inl ⟨faultEntryIsPrecise s hrunning hnone, hstep'⟩)
  case inr.inr =>
    obtain ⟨hea, hvalue⟩ := resolve_congr i (s := s.skip i.length) (t := s'.skip i.length) hx hy hm
    have hstep := (step_of_fetch hrunning hfetch).trans (exec_eq_effect _ _)
    have hstep' := (step_of_fetch (hrun.trans hrunning) hfetch').trans (exec_eq_effect _ _)
    rw [hea, hvalue] at hstep'
    exact .inr (.inr ⟨_, _, _, _, hstep, hstep'⟩)

/-- No operation reads or writes S. -/
theorem effect_withSp (op : Operation) (v : Byte) (ea : Addr) (s : State) (w : Byte) :
    effect op v ea { s with sp := w } = { effect op v ea s with sp := w } := by
  cases op with
  | bne => simp only [effect]; split <;> rfl
  | _ => rfl

/-- Settles O45: S commutes with each of the things a step can do. -/
theorem stackPointerIsInert : Obligations.StackPointerIsInert := by
  intro s w
  rcases step_alike (s := s) (s' := { s with sp := w }) rfl rfl rfl rfl rfl with
    ⟨h, h'⟩ | ⟨h, h'⟩ | ⟨op, v, ea, k, h, h'⟩
  · exact ⟨_, h, rfl, h'⟩
  · exact ⟨_, h, rfl, h'⟩
  · obtain ⟨hsp, -⟩ := effect_frame op v ea (s.skip k)
    exact ⟨_, h, hsp, h'.trans (congrArg _ (effect_withSp op v ea (s.skip k) w))⟩

/-- From P values p and p' the values q and q' were made, each bit of them written alike or kept. -/
def WrittenAlikeOrKept (p p' q q' : Byte) : Prop :=
  ∀ k, k < 8 →
    q'.getLsbD k = q.getLsbD k ∨ (q'.getLsbD k = p'.getLsbD k ∧ q.getLsbD k = p.getLsbD k)

theorem writtenAlikeOrKept_refl (p p' : Byte) : WrittenAlikeOrKept p p' p p' := fun _ _ => .inr ⟨rfl, rfl⟩

theorem WrittenAlikeOrKept.trans {p p' q q' r r' : Byte} (h : WrittenAlikeOrKept p p' q q')
    (h' : WrittenAlikeOrKept q q' r r') : WrittenAlikeOrKept p p' r r' := by
  intro k hk
  rcases h' k hk with halike | ⟨hkept', hkept⟩
  · exact .inl halike
  · rw [hkept', hkept]
    exact h k hk

theorem writtenAlikeOrKept_setFlag (f : Flag) (b : Bool) (p p' : Byte) :
    WrittenAlikeOrKept p p' (setFlag f b p) (setFlag f b p') := by
  intro k hk
  rw [getLsbD_setFlag f b p k hk, getLsbD_setFlag f b p' k hk]
  split
  · exact .inl rfl
  · exact .inr ⟨rfl, rfl⟩

theorem writtenAlikeOrKept_setZN (v p p' : Byte) : WrittenAlikeOrKept p p' (setZN v p) (setZN v p') :=
  (writtenAlikeOrKept_setFlag _ _ _ _).trans (writtenAlikeOrKept_setFlag _ _ _ _)

theorem writtenAlikeOrKept_compareFlags (r v p p' : Byte) :
    WrittenAlikeOrKept p p' (compareFlags r v p) (compareFlags r v p') :=
  (writtenAlikeOrKept_setFlag _ _ _ _).trans (writtenAlikeOrKept_setZN _ _ _)

theorem writtenAlikeOrKept_adcFlags (a v : Byte) {p p' : Byte} (hc : getFlag .c p' = getFlag .c p) :
    WrittenAlikeOrKept p p' (adcFlags a v p) (adcFlags a v p') := by
  simp only [adcFlags, hc]
  exact ((writtenAlikeOrKept_setFlag _ _ _ _).trans (writtenAlikeOrKept_setFlag _ _ _ _)).trans
    (writtenAlikeOrKept_setZN _ _ _)

section
variable {s : State} {p' : Byte}

/-- Of P an operation reads C and Z alone, so another P with the same two flags changes nothing but P. -/
theorem effect_withP (op : Operation) (v : Byte) (ea : Addr) (hc : getFlag .c p' = getFlag .c s.p)
    (hz : getFlag .z p' = getFlag .z s.p) :
    effect op v ea { s with p := p' } = { effect op v ea s with p := (effect op v ea { s with p := p' }).p } := by
  cases op with
  | adc => simp only [effect, State.addToA, hc]; rfl
  | bne => simp only [effect, hz]; split <;> rfl
  | _ => rfl

theorem writtenAlikeOrKept_effect (op : Operation) (v : Byte) (ea : Addr) (hc : getFlag .c p' = getFlag .c s.p)
    (hz : getFlag .z p' = getFlag .z s.p) :
    WrittenAlikeOrKept s.p p' (effect op v ea s).p (effect op v ea { s with p := p' }).p := by
  cases op with
  | lda | ldx | ldy | inx | dex | tax => exact writtenAlikeOrKept_setZN _ _ _
  | cmp | cpx | cpy => exact writtenAlikeOrKept_compareFlags _ _ _ _
  | adc => exact writtenAlikeOrKept_adcFlags _ _ hc
  | bne =>
    simp only [effect, hz]
    split <;> exact writtenAlikeOrKept_refl _ _
  | sta | stx | sty | jmp | brk => exact writtenAlikeOrKept_refl _ _

end

/-- Settles O46: outside an operation P is kept, and an operation writes it alike or keeps it, bit by bit. -/
theorem unreadStatusBitsAreInert : Obligations.UnreadStatusBitsAreInert := by
  intro s p' hc hz
  rcases step_alike (s := s) (s' := { s with p := p' }) rfl rfl rfl rfl rfl with
    ⟨h, h'⟩ | ⟨h, h'⟩ | ⟨op, v, ea, k, h, h'⟩
  · exact ⟨_, p', h, h', writtenAlikeOrKept_refl s.p p', fun _ _ _ => ⟨rfl, rfl⟩⟩
  · exact ⟨_, p', h, h', writtenAlikeOrKept_refl s.p p', fun _ _ _ => ⟨rfl, rfl⟩⟩
  · exact ⟨_, _, h, h'.trans (congrArg _ (effect_withP (s := s.skip k) op v ea hc hz)),
      writtenAlikeOrKept_effect op v ea hc hz,
      fun n h2 h5 => ⟨effect_reserved op v ea _ n h2 h5, effect_reserved op v ea _ n h2 h5⟩⟩

section
variable {s t : State}

theorem pointerReads_congr (o : Operand) (hx : t.x = s.x) : Operand.pointerReads o t = Operand.pointerReads o s := by
  cases o with
  | indx b => simp only [Operand.pointerReads, ptrIndx, hx]
  | _ => rfl

/-- Of memory an effective address depends on the pointer bytes alone. -/
theorem ea_congr {o : Operand} (hx : t.x = s.x) (hy : t.y = s.y)
    (hptr : ∀ a ∈ Operand.pointerReads o s, t.readByte a = s.readByte a) : Operand.ea o t = Operand.ea o s := by
  cases o with
  | ind | indx | indy =>
    simp only [Operand.pointerReads, List.forall_mem_cons, List.not_mem_nil, false_imp_iff, implies_true,
      and_true] at hptr
    obtain ⟨hlo, hhi⟩ := hptr
    simp only [Operand.ea, eaInd, eaIndx, eaIndy, State.readWord, ptrIndx, hx, hy] at hlo hhi ⊢
    rw [hlo, hhi]
  | zpx | absx => simp only [Operand.ea, eaZpx, eaAbsx, hx]
  | zpy | absy => simp only [Operand.ea, eaZpy, eaAbsy, hy]
  | _ => rfl

/-- Without an effective address the value is in the operand itself. -/
theorem value_of_ea_none {o : Operand} (want : Bool) (h : Operand.ea o s = none) :
    Operand.value o want t = Operand.value o want s := by
  cases o with
  | imm | imp | rel => rfl
  | _ => cases h

/-- Of memory an operand value depends on the effective address and the operand byte alone. -/
theorem operandValue_congr {i : Instr} (hea : effectiveAddress i t = effectiveAddress i s)
    (hread : ∀ a ∈ operandReads i s, t.readByte a = s.readByte a) : operandValue i t = operandValue i s := by
  cases he : effectiveAddress i s with
  | none => exact value_of_ea_none _ he
  | some ea =>
    rw [operandValue_eq_ite_of_ea (hea.trans he), operandValue_eq_ite_of_ea he]
    split
    next hwants => rw [hread ea (by simp [operandReads, hwants, he])]
    next => rfl

end

/-- No operation but a store reads or writes memory itself. -/
theorem effect_withMem (op : Operation) (v : Byte) (ea : Addr) (s : State) (m : Memory) :
    effect op v ea { s with mem := m } =
      { effect op v ea s with mem := (effect op v ea { s with mem := m }).mem } := by
  cases op with
  | bne => simp only [effect]; split <;> rfl
  | _ => rfl

theorem storedByte_withMem (op : Operation) (s : State) (m : Memory) :
    storedByte op { s with mem := m } = storedByte op s := by
  cases op <;> rfl

/-- An instruction in another memory that agrees at its pointer and operand reads: the same reads and writes are
recorded, and the same state is made, in that memory with those writes. -/
theorem exec_withMem {i : Instr} {s : State} {m : Memory}
    (hptr : ∀ a ∈ Operand.pointerReads i.operand s, m.read a.toNat = s.mem.read a.toNat)
    (hread : ∀ a ∈ operandReads i s, m.read a.toNat = s.mem.read a.toNat) :
    operandReads i { s with mem := m } = operandReads i s ∧ instrWrites i { s with mem := m } = instrWrites i s ∧
      ∃ t, exec i s = .next t ∧ exec i { s with mem := m } = .next { t with mem := m.writeAll (instrWrites i s) } := by
  have hea : effectiveAddress i { s with mem := m } = effectiveAddress i s := ea_congr rfl rfl hptr
  have hvalue : operandValue i { s with mem := m } = operandValue i s := operandValue_congr hea hread
  have hwrites : instrWrites i { s with mem := m } = instrWrites i s := by
    rw [instrWrites, hea, storedByte_withMem, instrWrites]
  refine ⟨by rw [operandReads, hea, operandReads], hwrites, _, exec_eq_effect i s, ?_⟩
  rw [exec_eq_effect, effect_withMem, effect_mem, hwrites, hea, hvalue]

/-- Settles O51: the recorded reads determine the instruction, its address and its operand value. -/
theorem stepDependsOnlyOnItsReads : Obligations.StepDependsOnlyOnItsReads := by
  intro s m hreads
  rcases fetch_alike (s := s) (s' := { s with mem := m }) rfl hreads with
    hstopped | ⟨hrun, hnone, hbyte⟩ | ⟨hrun, i, hfetch, hfetch'⟩
  case inl =>
    obtain ⟨hstep, hr, hw⟩ := stoppedStepChangesNothing s (run_stopped hstopped)
    obtain ⟨hstep', hr', hw'⟩ := stoppedStepChangesNothing { s with mem := m } (run_stopped hstopped)
    exact ⟨s, hstep, hw ▸ hstep', hr'.trans hr.symm, hw'.trans hw.symm⟩
  case inr.inl =>
    obtain ⟨hr, hw⟩ := access_of_undefined hrun hnone
    have hnone' : opcodeTable (m.read s.pc.toNat) = none := (congrArg opcodeTable hbyte).trans hnone
    obtain ⟨hr', hw'⟩ := access_of_undefined (s := { s with mem := m }) hrun hnone'
    have hstep' := faultEntryIsPrecise { s with mem := m } hrun hnone'
    rw [hbyte] at hstep'
    exact ⟨_, faultEntryIsPrecise s hrun hnone, hw ▸ hstep', hr'.trans hr.symm, hw'.trans hw.symm⟩
  case inr.inr =>
    rw [stepReads_of_fetch hrun hfetch] at hreads
    simp only [List.mem_append] at hreads
    obtain ⟨hoperand, hwrites, t, hexec, hexec'⟩ := exec_withMem (i := i) (s := s.skip i.length) (m := m)
      (fun a ha => hreads a (.inl (.inr ha))) (fun a ha => hreads a (.inr ha))
    rw [stepReads_of_fetch hrun hfetch, stepWrites_of_fetch hrun hfetch, step_of_fetch hrun hfetch]
    refine ⟨t, hexec, (step_of_fetch (s := { s with mem := m }) hrun hfetch').trans hexec', ?_,
      (stepWrites_of_fetch (s := { s with mem := m }) hrun hfetch').trans hwrites⟩
    rw [stepReads_of_fetch (s := { s with mem := m }) hrun hfetch']
    exact congrArg₂ (· ++ ·) (congrArg _ (pointerReads_congr i.operand rfl)) hoperand

end Sys2Proof.Proofs
end
